-- ==== Sys2Proof/Word.lean ====
section
/-! DEFINITION. The data types of the codec block: bytes, words, wire codes, the two address types, the two
structures the codecs translate to and from, and the names of the errors. Types only: what is computed on them is
in Machine/Operands.lean. -/

namespace Sys2Proof

/-- A byte, 0 to 255 (00_scope.md R9). -/
abbrev Byte := BitVec 8

/-- A value on the 32-bit data path of the host port (43_host_access.md R147). -/
abbrev Word := BitVec 32

/-- An 18-bit register address (10_state.md R38). -/
abbrev Addr := BitVec 18

/-- A 16-bit wire code: the numeric value a protocol uses on the wire (00_scope.md, glossary). -/
abbrev Code := BitVec 16

/-- An EtherType id as the hardware holds it: valid exactly when below `ETYPE_N` (10_state.md R21). -/
abbrev EtherTypeId := BitVec 16

/-- A MAC address: six bytes, `b0` first on the wire, with no meaning inside the block (00_scope.md R14,
10_state.md R22). A type of its own, so that no MAC can stand where an IPv4 address is wanted. -/
structure Mac where
  b0 : Byte
  b1 : Byte
  b2 : Byte
  b3 : Byte
  b4 : Byte
  b5 : Byte
deriving DecidableEq, Repr

/-- An IPv4 address: four bytes, `b0` first on the wire, opaque (00_scope.md R13, R14, 10_state.md R23). The
address written `a.b.c.d` is `⟨a, b, c, d⟩`. -/
structure Ipv4 where
  b0 : Byte
  b1 : Byte
  b2 : Byte
  b3 : Byte
deriving DecidableEq, Repr

/-- The source's EthernetFrame: destination, source, the RESOLVED type (an id, not a wire code), payload
(10_state.md R20, R26, R27). -/
structure EthFrame where
  dst : Mac
  src : Mac
  type : EtherTypeId
  payload : List Byte
deriving DecidableEq, Repr

/-- The source's ArpPacket, its nine fields in wire order (10_state.md R29, R30). -/
structure ArpPacket where
  htype : BitVec 16
  ptype : BitVec 16
  hlen : Byte
  plen : Byte
  oper : BitVec 16
  sha : Mac
  spa : Ipv4
  tha : Mac
  tpa : Ipv4
deriving DecidableEq, Repr

/-- What a decoder of the function layer fails with: the source's three kinds and the spec's own fourth, which
only a strict block returns (00_scope.md R12, 60_exceptions.md R160, 42_arp_packet.md R133). Return values, not
faults. -/
inductive CodecError where
  /-- The buffer is shorter than the format requires. -/
  | insufficientData
  /-- The wire code read from the frame has no entry in the register file. -/
  | unsupportedEtherType (code : Code)
  /-- The ARP length bytes are not 6 and 4. -/
  | unsupportedAddressLength
  /-- Strict blocks only: hardware type not 1 or protocol type not 0x0800. -/
  | unsupportedArpProfile
deriving DecidableEq, Repr

/-- The result codes a command can end with (60_exceptions.md R161). -/
inductive ErrCode where
  | ok
  | insufficientData
  | unsupportedEtherType
  | unsupportedAddressLength
  | badOperand
  | illegalCommand
  | unsupportedArpProfile
deriving DecidableEq, Repr

/-- The two byte memories, `WBUF` and `PBUF`, which share no cell (10_state.md R31 to R33). -/
inductive Buffer where
  | wire
  | payload
deriving DecidableEq, Repr

end Sys2Proof
end

