-- ==== Sys2Proof/Config.lean ====
section
/-! DEFINITION. What an implementation of the block fixes (00_scope.md R7, R8) and the values the spec leaves free
(10_state.md R44, 00_scope.md R15). -/

namespace Sys2Proof

/-- The parameters of 00_scope.md R7 that a command or an access consults. A block carries its own beside its state
(`State.cfg`) and no step changes it, so that a claim is stated for every value a parameter may take, as R7 asks
(DESIGN CHOICE, log 4). -/
structure Config where
  /-- `ETYPE_TABLE`: entry `i` is the wire code of EtherType id `i`. -/
  etypeTable : List Code
  /-- `WBUF_BYTES`: capacity of the wire buffer. -/
  wbufBytes : Nat
  /-- `ARP_STRICT_TYPES`: whether ARPDEC also rejects hardware type /= 1 and protocol type /= 0x0800. -/
  arpStrictTypes : Bool
deriving DecidableEq, Repr

namespace Config

/-- `ETYPE_N`: the number of entries of the EtherType register file (00_scope.md R7). -/
abbrev etypeN (c : Config) : Nat := c.etypeTable.length

/-- `PBUF_BYTES = WBUF_BYTES - 14`, not free (00_scope.md R7). -/
abbrev pbufBytes (c : Config) : Nat := c.wbufBytes - 14

/-- The defaults of 00_scope.md R7. -/
def standard : Config := { etypeTable := [0x0800, 0x0806], wbufBytes := 1514, arpStrictTypes := false }

/-- The admissible parameters: the bounds of 00_scope.md R7 and the constraints (a) to (e) of R8 on the table. -/
abbrev wf (c : Config) : Prop :=
  2 ≤ c.etypeN ∧ c.etypeN ≤ 128 ∧ c.etypeTable.Nodup ∧
    c.etypeTable[0]? = some 0x0800 ∧ c.etypeTable[1]? = some 0x0806 ∧ (0x9999 : Code) ∉ c.etypeTable ∧
    42 ≤ c.wbufBytes ∧ c.wbufBytes ≤ 65536

/-- FREE VALUE (10_state.md R44, 93_implementation_defined.md U1): what byte `k` of a buffer holds after the
`resets`-th reset for as long as nothing has written it. No body: nothing in Lean can tell its value (log 6). -/
opaque unwrittenByte : (resets : Nat) → Buffer → (k : Nat) → Byte

/-- FREE VALUE: the parameter `MAC_TEXT_UPPER`, the case of the hexadecimal digits of the MAC text form, which the
spec leaves open with no default (00_scope.md R7, R15; log 13). -/
opaque macTextUpper : Bool

end Config

end Sys2Proof
end

