-- ==== Sys2Proof/Syntax.lean ====
section
/-! DEFINITION. The syntax: the seven commands, the fields of a command word, the registers of the map, what the
host can do, and the lines of a host script. -/

namespace Sys2Proof

/-- The seven commands, one constructor per row of spec/opcode_table.json (30_encoding.md R94). Format I commands
carry their 16-bit immediate; format N commands have no operand (R91). -/
inductive Instr where
  /-- `ETRES #code`: resolve a wire code (R112). -/
  | etres (code : Code)
  /-- `ETWC #id`: wire code of an EtherType id (R113). -/
  | etwc (id : EtherTypeId)
  /-- `ETHDEC`: decode the wire buffer into the frame registers and the payload buffer (R122). -/
  | ethdec
  /-- `ETHENC`: encode the frame registers and the payload buffer into the wire buffer (R123). -/
  | ethenc
  /-- `ARPDEC`: decode the payload buffer into the ARP registers (R135). -/
  | arpdec
  /-- `ARPENC`: encode the ARP registers into the payload buffer (R136). -/
  | arpenc
  /-- `ARPREQ`: make the ARP registers a new request around the addresses already in them (R137). -/
  | arpreq
deriving DecidableEq, Repr

/-- The three fields of a command word (30_encoding.md R90). -/
structure CmdFields where
  op : Byte
  zero : Byte
  imm : BitVec 16
deriving DecidableEq, Repr

/-- The registers of the register map, by name (10_state.md R38). -/
inductive Reg where
  | cmd
  | status
  | result
  | wlen
  | fType
  | plen
  | fDst (j : Fin 6)
  | fSrc (j : Fin 6)
  | aHtype
  | aPtype
  | aHln
  | aPln
  | aOper
  | aSha (j : Fin 6)
  | aSpa (j : Fin 4)
  | aTha (j : Fin 6)
  | aTpa (j : Fin 4)
  | et (i : Nat)
  | wbuf (k : Nat)
  | pbuf (k : Nat)
deriving DecidableEq, Repr

/-- What can happen at the block's boundary between two steps (43_host_access.md R145, R146;
70_reset_and_hazards.md R185, R187). -/
inductive HostEvent where
  /-- `HostRead(addr)`. -/
  | read (addr : Addr)
  /-- `HostWrite(addr, v)`; on `CMD` the data is a command word. -/
  | write (addr : Addr) (data : Word)
  /-- `RST` asserted and released. -/
  | reset
  /-- The host's own decision (30_encoding.md R98, `RXARP`): unless the last value read, masked with `mask`, is
  `value`, the host leaves out its next `n` events. It touches nothing of the block (log 14). -/
  | skipUnless (mask value : Word) (n : Nat)
deriving DecidableEq, Repr

/-- The lines of a host script (30_encoding.md R97) and the host's conditional (R98). -/
inductive Line where
  /-- A command line: write the command's word to `CMD`. -/
  | cmd (i : Instr)
  /-- `WR reg, v`. -/
  | wr (r : Reg) (v : Word)
  /-- `RD reg`. -/
  | rd (r : Reg)
  /-- The host's decision on the value it read last. -/
  | skipUnless (mask value : Word) (n : Nat)
deriving DecidableEq, Repr

end Sys2Proof
end

