-- ==== Sys2Proof/WellFormed.lean ====
section
/-! DEFINITION. When a term of the syntax is well formed: the checks 30_encoding.md R91, R93 and R95 make of a
command word's fields, and 43_host_access.md R149 of the registers a script names. -/

namespace Sys2Proof

/-- The opcodes of format I, whose `IMM16` is an operand (30_encoding.md R93). -/
def formatIOps : List Byte := [0x01, 0x02]

/-- The opcodes of format N, whose `IMM16` must be 0 (30_encoding.md R93). -/
def formatNOps : List Byte := [0x10, 0x11, 0x20, 0x21, 0x22]

/-- `ZERO` must be 0 (30_encoding.md R90). -/
def CmdFields.zeroOk (f : CmdFields) : Bool := f.zero == 0

/-- `OP` must be one of the seven (30_encoding.md R94). -/
def CmdFields.opOk (f : CmdFields) : Bool := formatIOps.contains f.op || formatNOps.contains f.op

/-- A format N opcode needs `IMM16 = 0` (30_encoding.md R91). -/
def CmdFields.immOk (f : CmdFields) : Bool := !formatNOps.contains f.op || f.imm == 0

/-- The fields are those of a command (30_encoding.md R93). -/
def CmdFields.wf (f : CmdFields) : Bool := f.zeroOk && f.opOk && f.immOk

/-- The register exists in a block with these parameters (10_state.md R38): only the three windows have a bound
that a parameter sets. -/
def Reg.wf (c : Config) : Reg → Bool
  | .et i => decide (i < c.etypeN)
  | .wbuf k => decide (k < c.wbufBytes)
  | .pbuf k => decide (k < c.pbufBytes)
  | _ => true

/-- A script line names mapped registers only: the premise of every claim about a script (43_host_access.md
R149). -/
def Line.wf (c : Config) : Line → Bool
  | .wr r _ => r.wf c
  | .rd r => r.wf c
  | .cmd _ => true
  | .skipUnless _ _ _ => true

end Sys2Proof
end

