-- ==== Sys2Proof/Decode.lean ====
section
/-! DEFINITION. Decoding and encoding of command words (30_encoding.md R90 to R96), and the opcode table as rows of
match and mask. -/

namespace Sys2Proof

/-- Why a word is no command (30_encoding.md R95). All three end the same way, in IllegalCommand. -/
inductive DecodeError where
  /-- `ZERO` is not 0. -/
  | zeroFieldNotZero
  /-- `OP` is not one of the seven opcodes. -/
  | opcodeUnassigned
  /-- A format N opcode with `IMM16` not 0. -/
  | immediateNotZero
deriving DecidableEq, Repr

/-- The fields of a command word: `OP` 7:0, `ZERO` 15:8, `IMM16` 31:16 (30_encoding.md R90, R92). -/
def fieldsOf (w : Word) : CmdFields :=
  { op := w.extractLsb' 0 8, zero := w.extractLsb' 8 8, imm := w.extractLsb' 16 16 }

/-- The word of three fields. -/
def wordOf (f : CmdFields) : Word := f.imm ++ (f.zero ++ f.op)

/-- The format I command of an opcode (30_encoding.md R94). -/
def formatI (op : Byte) (imm : BitVec 16) : Option Instr :=
  if op = 0x01 then some (.etres imm) else if op = 0x02 then some (.etwc imm) else none

/-- The format N command of an opcode (30_encoding.md R94). -/
def formatN (op : Byte) : Option Instr :=
  if op = 0x10 then some .ethdec
  else if op = 0x11 then some .ethenc
  else if op = 0x20 then some .arpdec
  else if op = 0x21 then some .arpenc
  else if op = 0x22 then some .arpreq
  else none

/-- Decoding, total on all 2^32 words, in the order of tests of 30_encoding.md R93. -/
def decode (w : Word) : Except DecodeError Instr :=
  let f := fieldsOf w
  if f.zero ≠ 0 then .error .zeroFieldNotZero
  else match formatI f.op f.imm with
    | some i => .ok i
    | none =>
      match formatN f.op with
      | some i => if f.imm ≠ 0 then .error .immediateNotZero else .ok i
      | none => .error .opcodeUnassigned

/-- The fields of a command's word, from the table of 30_encoding.md R94. -/
def Instr.fields : Instr → CmdFields
  | .etres code => { op := 0x01, zero := 0, imm := code }
  | .etwc id => { op := 0x02, zero := 0, imm := id }
  | .ethdec => { op := 0x10, zero := 0, imm := 0 }
  | .ethenc => { op := 0x11, zero := 0, imm := 0 }
  | .arpdec => { op := 0x20, zero := 0, imm := 0 }
  | .arpenc => { op := 0x21, zero := 0, imm := 0 }
  | .arpreq => { op := 0x22, zero := 0, imm := 0 }

/-- A command is well formed when the fields of its word are; every term of `Instr` is, since any 16-bit immediate
is a well-formed encoding of format I (30_encoding.md R91). -/
def Instr.wf (i : Instr) : Bool := i.fields.wf

/-- The command word of a command (30_encoding.md R94, R97). -/
def encode (i : Instr) : Word := wordOf i.fields

/-- A row of spec/opcode_table.json: the words of a command are those `w` with `w AND mask = match`. -/
structure OpcodeRow where
  mnemonic : String
  matchBits : Word
  mask : Word
deriving DecidableEq, Repr

/-- spec/opcode_table.json and the table of 30_encoding.md R94. -/
def opcodeTable : List OpcodeRow :=
  [⟨"ETRES", 0x00000001, 0x0000FFFF⟩, ⟨"ETWC", 0x00000002, 0x0000FFFF⟩, ⟨"ETHDEC", 0x00000010, 0xFFFFFFFF⟩,
   ⟨"ETHENC", 0x00000011, 0xFFFFFFFF⟩, ⟨"ARPDEC", 0x00000020, 0xFFFFFFFF⟩, ⟨"ARPENC", 0x00000021, 0xFFFFFFFF⟩,
   ⟨"ARPREQ", 0x00000022, 0xFFFFFFFF⟩]

/-- The word is taken by the row (30_encoding.md R93). -/
def OpcodeRow.takes (r : OpcodeRow) (w : Word) : Bool := w &&& r.mask == r.matchBits

/-- A command's mnemonic (30_encoding.md R94). -/
def Instr.mnemonic : Instr → String
  | .etres _ => "ETRES"
  | .etwc _ => "ETWC"
  | .ethdec => "ETHDEC"
  | .ethenc => "ETHENC"
  | .arpdec => "ARPDEC"
  | .arpenc => "ARPENC"
  | .arpreq => "ARPREQ"

/-- The command the decoder reads from a word of `nbits` bits, numbered as spec/opcode_table.json numbers them; a
command is one 32-bit word (30_encoding.md R96), so bits at and above `nbits` are 0 and bits above 31 are none. -/
def decodeTableWord (nbits w : Nat) : Option Instr :=
  match decode (BitVec.ofNat 32 (w % 2 ^ nbits)) with
  | .ok i => some i
  | .error _ => none

end Sys2Proof
end

