-- ==== Sys2Proof/Machine/State.lean ====
section
/-! DEFINITION. The state of the codec block (10_state.md R20), why a step can stop, and the state after reset
(10_state.md R43, R44). -/

namespace Sys2Proof.Machine

/-- A byte buffer as plain data: pairs of index and byte, indices strictly rising. An index that is not listed holds
no value yet: nothing has written it since reset (10_state.md R44; log 16). -/
abbrev Memory := List Host.Cell

/-- The host's side of the host port: outside the block, but the block's steps are its events (00_scope.md R6,
43_host_access.md R152; log 1, log 3). -/
structure Port where
  /-- What happens next at the boundary, first event first. The block has no program counter and holds no program:
  the order is the host's (10_state.md R40). -/
  pending : List HostEvent
  /-- The values host reads have returned, newest first. -/
  answers : List Word
deriving DecidableEq, Repr

/-- The block's whole state (10_state.md R20), with the model's own `cfg`, `resets` and `port`. `CMD` has no storage
(R35). -/
structure State where
  /-- The parameters of this block (00_scope.md R7); no step changes them (log 4). -/
  cfg : Config
  /-- `ET`, the EtherType register file: entry `i` is the wire code of id `i` (10_state.md R24). -/
  et : List Code
  /-- `F_DST` (10_state.md R26). -/
  fDst : Mac
  /-- `F_SRC` (10_state.md R26). -/
  fSrc : Mac
  /-- `F_TYPE`, an EtherType id or any other 16-bit value (10_state.md R26). -/
  fType : EtherTypeId
  /-- `WBUF` (10_state.md R31). -/
  wbuf : Memory
  /-- `WLEN`, which can hold any 32-bit value (10_state.md R31). -/
  wlen : Word
  /-- `PBUF` (10_state.md R32). -/
  pbuf : Memory
  /-- `PLEN`, which can hold any 32-bit value (10_state.md R32). -/
  plen : Word
  /-- `A_HTYPE` (10_state.md R29). -/
  aHtype : BitVec 16
  /-- `A_PTYPE` (10_state.md R29). -/
  aPtype : BitVec 16
  /-- `A_HLN` (10_state.md R29). -/
  aHln : Byte
  /-- `A_PLN` (10_state.md R29). -/
  aPln : Byte
  /-- `A_OPER` (10_state.md R29). -/
  aOper : BitVec 16
  /-- `A_SHA` (10_state.md R29). -/
  aSha : Mac
  /-- `A_SPA` (10_state.md R29). -/
  aSpa : Ipv4
  /-- `A_THA` (10_state.md R29). -/
  aTha : Mac
  /-- `A_TPA` (10_state.md R29). -/
  aTpa : Ipv4
  /-- `STATUS`: `ERR` 3:0, reserved 15:4, `INFO` 31:16 (10_state.md R36). -/
  status : Word
  /-- `RESULT`: `VALUE` 15:0, `VALID` 16, reserved 31:17 (10_state.md R37). -/
  result : Word
  /-- The model's own: how many resets there have been, which picks the free contents of the buffer bytes nothing has
  written since (10_state.md R44; log 7). -/
  resets : Nat
  /-- The model's own: the host's side of the port. -/
  port : Port
deriving DecidableEq, Repr

/-- There is no fault: every result code of every command is a next state (60_exceptions.md R167), so nothing raises
one and the type has no constructor. Neither safe nor unsafe: no step ends here (log 11). -/
inductive Fault
deriving DecidableEq, Repr

/-- Why a step can be refused. -/
inductive Refusal where
  /-- An instruction that has no meaning yet, by its mnemonic. Safe. No arm of `exec` raises it: all seven commands
  have their meaning. -/
  | notModelled (mnemonic : String)
  /-- A host access to an address the register map does not map, raised by `hostRead` and `hostWrite` only
  (43_host_access.md R149: "a model must **refuse** such an access"). Safe. -/
  | unmappedAccess (addr : Addr)
deriving DecidableEq, Repr

/-- A MAC register of zeros (10_state.md R43). -/
def zeroMac : Mac := ⟨0, 0, 0, 0, 0, 0⟩

/-- An IPv4 register of zeros (10_state.md R43). -/
def zeroIpv4 : Ipv4 := ⟨0, 0, 0, 0⟩

/-- The state reset leaves, for a block with parameters `c`: the register file loaded, every scalar register 0, no
buffer byte with a value (10_state.md R43, R44; 70_reset_and_hazards.md R185, R186). -/
def State.resetOf (c : Config) (resets : Nat) (p : Port) : State :=
  { cfg := c, et := c.etypeTable,
    fDst := zeroMac, fSrc := zeroMac, fType := 0,
    wbuf := [], wlen := 0, pbuf := [], plen := 0,
    aHtype := 0, aPtype := 0, aHln := 0, aPln := 0, aOper := 0,
    aSha := zeroMac, aSpa := zeroIpv4, aTha := zeroMac, aTpa := zeroIpv4,
    status := 0, result := 0, resets := resets, port := p }

/-- The machine right after reset, with the default parameters (00_scope.md R7, 10_state.md R43) and a host that has
nothing pending (70_reset_and_hazards.md R188). -/
def State.reset : State := State.resetOf Config.standard 0 { pending := [], answers := [] }

end Sys2Proof.Machine
end

