-- ==== Sys2Proof/Machine/Flags.lean ====
section
/-! DEFINITION. The two result registers: how `STATUS` and `RESULT` are composed and read (10_state.md R36, R37;
60_exceptions.md R161). The block has no other condition code. -/

namespace Sys2Proof.Machine

/-- The number of a result code (60_exceptions.md R161). -/
def errBits : ErrCode → BitVec 4
  | .ok => 0
  | .insufficientData => 1
  | .unsupportedEtherType => 2
  | .unsupportedAddressLength => 3
  | .badOperand => 4
  | .illegalCommand => 5
  | .unsupportedArpProfile => 6

/-- `STATUS` with `INFO` 31:16, bits 15:4 zero, `ERR` 3:0 (10_state.md R36). -/
def statusWord (e : ErrCode) (info : BitVec 16) : Word := info ++ ((0 : BitVec 12) ++ errBits e)

/-- `RESULT` with bits 31:17 zero, `VALID` 16 set, `VALUE` 15:0 (10_state.md R37, 40_etype_registry.md R112, R113:
`zext_32(value) OR 0x00010000`). -/
def validResult (value : BitVec 16) : Word := value.setWidth 32 ||| 0x00010000

/-- `RESULT` of a lookup that finds nothing: `VALID = 0`, `VALUE = 0` (40_etype_registry.md R112). -/
def noResult : Word := 0

/-- `STATUS.ERR`. -/
def State.err (s : State) : BitVec 4 := s.status.extractLsb' 0 4

/-- `STATUS.INFO`. -/
def State.info (s : State) : BitVec 16 := s.status.extractLsb' 16 16

/-- `RESULT.VALUE`. -/
def State.value (s : State) : BitVec 16 := s.result.extractLsb' 0 16

/-- `RESULT.VALID`. -/
def State.valid (s : State) : Bool := s.result.getLsbD 16

end Sys2Proof.Machine
end

