-- ==== Sys2Proof/Machine/Operands.lean ====
section
/-! DEFINITION. Byte sequences and the values read from and written to them: big-endian 16-bit fields (00_scope.md
R10, 20_memory.md R60), addresses as byte sequences in wire order (20_memory.md R61), and the MAC text form
(00_scope.md R15). The reads are total: past the end of a sequence they give 0, which no decoder reaches, since each
tests the length first (20_memory.md R65; log 17). -/

namespace Sys2Proof.Machine

/-- `b[i]`. -/
def byteAt (b : List Byte) (i : Nat) : Byte := b.getD i 0

/-- `be16(b, i) = b[i] * 256 + b[i+1]`: the byte at the lower offset is the more significant (00_scope.md R10). -/
def be16 (b : List Byte) (i : Nat) : BitVec 16 := byteAt b i ++ byteAt b (i + 1)

/-- `be16bytes(v) = [v[15:8], v[7:0]]` (00_scope.md R10). -/
def be16bytes (v : BitVec 16) : List Byte := [v.extractLsb' 8 8, v.extractLsb' 0 8]

/-- The MAC in `b[i:i+6)`, order kept (20_memory.md R61). -/
def macAt (b : List Byte) (i : Nat) : Mac :=
  ⟨byteAt b i, byteAt b (i + 1), byteAt b (i + 2), byteAt b (i + 3), byteAt b (i + 4), byteAt b (i + 5)⟩

/-- The IPv4 address in `b[i:i+4)`, order kept (20_memory.md R61). -/
def ipv4At (b : List Byte) (i : Nat) : Ipv4 :=
  ⟨byteAt b i, byteAt b (i + 1), byteAt b (i + 2), byteAt b (i + 3)⟩

/-- The six bytes of a MAC in wire order (10_state.md R22). -/
def macBytes (m : Mac) : List Byte := [m.b0, m.b1, m.b2, m.b3, m.b4, m.b5]

/-- The four bytes of an IPv4 address in wire order (10_state.md R23). -/
def ipv4Bytes (a : Ipv4) : List Byte := [a.b0, a.b1, a.b2, a.b3]

/-- Element `j` of a MAC register array. -/
def macByte (m : Mac) (j : Fin 6) : Byte := byteAt (macBytes m) j

/-- Element `j` of an IPv4 register array. -/
def ipv4Byte (a : Ipv4) (j : Fin 4) : Byte := byteAt (ipv4Bytes a) j

/-- A MAC register array with element `j` replaced (10_state.md R38: each element is a register of its own). -/
def setMacByte (m : Mac) (j : Fin 6) (v : Byte) : Mac := macAt ((macBytes m).set j v) 0

/-- An IPv4 register array with element `j` replaced. -/
def setIpv4Byte (a : Ipv4) (j : Fin 4) (v : Byte) : Ipv4 := ipv4At ((ipv4Bytes a).set j v) 0

/-- The hexadecimal digits in one case. -/
def hexDigits (upper : Bool) : List Char :=
  ['0', '1', '2', '3', '4', '5', '6', '7', '8', '9'] ++
    (if upper then ['A', 'B', 'C', 'D', 'E', 'F'] else ['a', 'b', 'c', 'd', 'e', 'f'])

/-- A byte as exactly two hexadecimal digits, leading zero kept (00_scope.md R15). -/
def byteText (upper : Bool) (v : Byte) : List Char :=
  [(hexDigits upper).getD (v.toNat / 16) '0', (hexDigits upper).getD (v.toNat % 16) '0']

/-- `MacText(m)` for one value of `MAC_TEXT_UPPER`: the six bytes in index order joined by `:`, 17 characters
(00_scope.md R15). -/
def macTextChars (upper : Bool) (m : Mac) : List Char :=
  List.intercalate [':'] ((macBytes m).map (byteText upper))

/-- `MacText(m)` of this block, whose `MAC_TEXT_UPPER` is left open (00_scope.md R15; log 13). An auxiliary function:
no command and no register shows it. -/
def macText (m : Mac) : String := String.ofList (macTextChars Config.macTextUpper m)

end Sys2Proof.Machine
end

