-- ==== Sys2Proof/Machine/Ops.lean ====
section
/-! DEFINITION. The shared operations: the two buffers, the end of a command (this block's only form of an
exception), and the values the registers hold. -/

namespace Sys2Proof.Machine

/-- The value written at index `k`, or none when nothing has written it since reset (10_state.md R44). -/
def Memory.get? : Memory → Nat → Option Byte
  | [], _ => none
  | c :: m, k => if c.1 = k then some c.2 else Memory.get? m k

/-- The cells of a byte sequence laid from index `base` on. -/
def cellsFrom (base : Nat) : List Byte → Memory
  | [] => []
  | v :: vs => (base, v) :: cellsFrom (base + 1) vs

/-- `BUF[base:base+len) <- bs`: writes exactly that range and leaves every other byte (00_scope.md R11,
10_state.md R34). -/
def Memory.overlay (m : Memory) (base : Nat) (bs : List Byte) : Memory :=
  m.filter (fun c => decide (c.1 < base)) ++
    (cellsFrom base bs ++ m.filter (fun c => decide (base + bs.length ≤ c.1)))

/-- The canonical form of a buffer: indices strictly rising. Every listed index holds a value and an unlisted one
holds none, so no entry can equal what an unlisted index holds (log 16). -/
abbrev Memory.wf (m : Memory) : Prop := m.Pairwise (fun c d => c.1 < d.1)

/-- Every listed index is below the capacity (20_memory.md R65). -/
abbrev Memory.within (m : Memory) (capacity : Nat) : Prop := ∀ c ∈ m, c.1 < capacity

/-- The memory of a buffer. -/
def State.mem (s : State) : Buffer → Memory
  | .wire => s.wbuf
  | .payload => s.pbuf

/-- Byte `k` of a buffer: what was last written there since reset, or else its unspecified reset contents, a free
value that nothing constrains (10_state.md R34, R44; log 6). -/
def State.bufByte (s : State) (b : Buffer) (k : Nat) : Byte :=
  match (s.mem b).get? k with
  | some v => v
  | none => Config.unwrittenByte s.resets b k

/-- `BUF[0:n)`. -/
def State.bufBytes (s : State) (b : Buffer) (n : Nat) : List Byte := (List.range n).map (s.bufByte b)

/-- `BUF[base:base+len) <- bs`. -/
def State.writeBuf (s : State) (b : Buffer) (base : Nat) (bs : List Byte) : State :=
  match b with
  | .wire => { s with wbuf := s.wbuf.overlay base bs }
  | .payload => { s with pbuf := s.pbuf.overlay base bs }

/-- `finish(err, info)`: the end of every command. It writes `STATUS`, both fields, and nothing else; with `err`
nonzero it is all the command does, and it is this block's whole form of an exception: nothing is saved, no mode
changes, no control is transferred, and there is no return (00_scope.md R11; 60_exceptions.md R166, R168, R169). -/
def State.finish (s : State) (e : ErrCode) (info : BitVec 16) : State := { s with status := statusWord e info }

/-- The end of a command whose decoder failed: the kind's result code, with the unresolved wire code as `INFO` and 0
for every other kind (60_exceptions.md R160, R161, R165). -/
def State.finishError (s : State) : CodecError → State
  | .insufficientData => s.finish .insufficientData 0
  | .unsupportedEtherType code => s.finish .unsupportedEtherType code
  | .unsupportedAddressLength => s.finish .unsupportedAddressLength 0
  | .unsupportedArpProfile => s.finish .unsupportedArpProfile 0

/-- The frame the registers hold, none when `PLEN > PBUF_BYTES` or `F_TYPE >= ETYPE_N` (10_state.md R27). `ETYPE_N`
is the number of entries of the register file (R24; log 5). -/
def State.frame? (s : State) : Option EthFrame :=
  if s.plen.toNat ≤ s.cfg.pbufBytes ∧ s.fType.toNat < s.et.length then
    some { dst := s.fDst, src := s.fSrc, type := s.fType, payload := s.bufBytes .payload s.plen.toNat }
  else none

/-- The packet the ARP registers hold, whatever they hold (10_state.md R30). -/
def State.packet (s : State) : ArpPacket :=
  { htype := s.aHtype, ptype := s.aPtype, hlen := s.aHln, plen := s.aPln, oper := s.aOper,
    sha := s.aSha, spa := s.aSpa, tha := s.aTha, tpa := s.aTpa }

/-- Writes all nine ARP registers (42_arp_packet.md R135). -/
def State.setPacket (s : State) (p : ArpPacket) : State :=
  { s with aHtype := p.htype, aPtype := p.ptype, aHln := p.hlen, aPln := p.plen, aOper := p.oper,
           aSha := p.sha, aSpa := p.spa, aTha := p.tha, aTpa := p.tpa }

/-- The packet is of the Ethernet/IPv4 profile (10_state.md R30). -/
abbrev profileValid (p : ArpPacket) : Prop := p.htype = 1 ∧ p.ptype = 0x0800 ∧ p.hlen = 6 ∧ p.plen = 4

end Sys2Proof.Machine
end

