-- ==== Sys2Proof/Machine/Arp.lean ====
section
/-! DEFINITION. The ARP packet codec: decode, encode and newRequest as functions (42_arp_packet.md R130, R131, R132,
layout R134, no overlapping copy R138) and as the commands ARPDEC, ARPENC and ARPREQ (R135, R136, R137). -/

namespace Sys2Proof.Machine

/-- `ArpDecode(b)` (42_arp_packet.md R130): length, then the two length bytes, then, on a strict block only, the two
types (R133); bytes from 28 on are ignored (R140), the operation code is carried (R141). -/
def arpDecode (strict : Bool) (b : List Byte) : Except CodecError ArpPacket :=
  if b.length < 28 then .error .insufficientData
  else if byteAt b 4 ≠ 6 ∨ byteAt b 5 ≠ 4 then .error .unsupportedAddressLength
  else if strict = true ∧ (be16 b 0 ≠ 1 ∨ be16 b 2 ≠ 0x0800) then .error .unsupportedArpProfile
  else .ok { htype := be16 b 0, ptype := be16 b 2, hlen := byteAt b 4, plen := byteAt b 5, oper := be16 b 6,
             sha := macAt b 8, spa := ipv4At b 14, tha := macAt b 18, tpa := ipv4At b 24 }

/-- `ArpEncode(p)` (42_arp_packet.md R131): total, always 28 bytes; `hlen` and `plen` are written as the numbers they
are. -/
def arpEncode (p : ArpPacket) : List Byte :=
  be16bytes p.htype ++ (be16bytes p.ptype ++ (p.hlen :: p.plen :: (be16bytes p.oper ++
    (macBytes p.sha ++ (ipv4Bytes p.spa ++ (macBytes p.tha ++ ipv4Bytes p.tpa))))))

/-- `ArpNewRequest(senderMAC, targetMAC, senderIPv4, targetIPv4)` in the source's argument order (42_arp_packet.md
R132). -/
def arpNewRequest (senderMac targetMac : Mac) (senderIp targetIp : Ipv4) : ArpPacket :=
  { htype := 1, ptype := 0x0800, hlen := 6, plen := 4, oper := 1,
    sha := senderMac, spa := senderIp, tha := targetMac, tpa := targetIp }

/-- What ARPENC writes besides `STATUS`: `PLEN <- 28` and `PBUF[0:28)` (42_arp_packet.md R136). -/
def State.setPayload (s : State) (bs : List Byte) : State := { s with plen := 28 }.writeBuf .payload 0 bs

/-- What ARPREQ writes besides `STATUS`: the five constants (42_arp_packet.md R137). -/
def State.setRequest (s : State) : State :=
  { s with aHtype := 1, aPtype := 0x0800, aHln := 6, aPln := 4, aOper := 1 }

/-- `ARPDEC` (42_arp_packet.md R135): decodes whatever the payload buffer holds, whatever `F_TYPE` is. -/
def execArpdec (s : State) : Host.Outcome State Fault Refusal :=
  if s.cfg.pbufBytes < s.plen.toNat then .next (s.finish .badOperand 0)
  else match arpDecode s.cfg.arpStrictTypes (s.bufBytes .payload s.plen.toNat) with
    | .error e => .next (s.finishError e)
    | .ok p => .next ((s.setPacket p).finish .ok 0)

/-- `ARPENC` (42_arp_packet.md R136): total; `PLEN` becomes 28 and the bytes from 28 on keep their values. -/
def execArpenc (s : State) : Host.Outcome State Fault Refusal :=
  .next ((s.setPayload (arpEncode s.packet)).finish .ok 0)

/-- `ARPREQ` (42_arp_packet.md R137): leaves the four address registers as the host set them. -/
def execArpreq (s : State) : Host.Outcome State Fault Refusal := .next (s.setRequest.finish .ok 0)

end Sys2Proof.Machine
end

