-- ==== Sys2Proof/Machine/Registry.lean ====
section
/-! DEFINITION. The EtherType registry: the two lookups as functions of a register file (40_etype_registry.md R110,
R111) and as the commands ETRES and ETWC (R112, R113). -/

namespace Sys2Proof.Machine

/-- `Resolve(code)`: the id of the entry equal to `code`, none when there is none (40_etype_registry.md R110). A
linear search: with distinct entries the order cannot be observed (R110, R116). -/
def resolve (et : List Code) (code : Code) : Option EtherTypeId :=
  (et.findIdx? (fun c => c == code)).map (BitVec.ofNat 16)

/-- `WireCodeOf(id) = ET[id]`, defined for `id < ETYPE_N` only (40_etype_registry.md R111). -/
def wireCodeOf (et : List Code) (id : EtherTypeId) : Option Code := et[id.toNat]?

/-- What ETRES and ETWC write besides `STATUS` (10_state.md R37). -/
def State.setResult (s : State) (v : Word) : State := { s with result := v }

/-- `ETRES #code` (40_etype_registry.md R112): "none" is an answer, not an error (R115). -/
def execEtres (code : Code) (s : State) : Host.Outcome State Fault Refusal :=
  match resolve s.et code with
  | some id => .next ((s.setResult (validResult id)).finish .ok 0)
  | none => .next ((s.setResult noResult).finish .ok 0)

/-- `ETWC #id` (40_etype_registry.md R113): BadOperand when `id >= ETYPE_N`, leaving `RESULT` as it was. -/
def execEtwc (id : EtherTypeId) (s : State) : Host.Outcome State Fault Refusal :=
  match wireCodeOf s.et id with
  | some code => .next ((s.setResult (validResult code)).finish .ok 0)
  | none => .next (s.finish .badOperand 0)

end Sys2Proof.Machine
end

