-- ==== Sys2Proof/Machine/Ethernet.lean ====
section
/-! DEFINITION. The Ethernet II frame codec: decode and encode as functions (41_ethernet_frame.md R120, R121, layout
R125) and as the commands ETHDEC and ETHENC (R122, R123). Nothing is filtered, padded, stripped, checked or chained
(R124, R127, R128). -/

namespace Sys2Proof.Machine

/-- `EthDecode(b)` (41_ethernet_frame.md R120): length first, then the type; the payload is a copy of
`b[14:len(b))`. -/
def ethDecode (et : List Code) (b : List Byte) : Except CodecError EthFrame :=
  if b.length < 14 then .error .insufficientData
  else match resolve et (be16 b 12) with
    | none => .error (.unsupportedEtherType (be16 b 12))
    | some id => .ok { dst := macAt b 0, src := macAt b 6, type := id, payload := b.drop 14 }

/-- `EthEncode(f)` (41_ethernet_frame.md R121): total on the frames with a valid type, none for a value that is no
frame. Nothing is inserted, appended or padded. -/
def ethEncode (et : List Code) (f : EthFrame) : Option (List Byte) :=
  (wireCodeOf et f.type).map fun code => macBytes f.dst ++ (macBytes f.src ++ (be16bytes code ++ f.payload))

/-- What a successful ETHDEC writes besides `STATUS`: the frame registers, `PLEN <- WLEN - 14` and
`PBUF[0:WLEN-14)` (41_ethernet_frame.md R122). -/
def State.setFrame (s : State) (f : EthFrame) : State :=
  { s with fDst := f.dst, fSrc := f.src, fType := f.type, plen := s.wlen - 14 }.writeBuf .payload 0 f.payload

/-- What a successful ETHENC writes besides `STATUS`: `WLEN <- 14 + PLEN` and `WBUF[0:14+PLEN)`
(41_ethernet_frame.md R123). -/
def State.setRaw (s : State) (bs : List Byte) : State :=
  { s with wlen := 14 + s.plen }.writeBuf .wire 0 bs

/-- `ETHDEC` (41_ethernet_frame.md R122). -/
def execEthdec (s : State) : Host.Outcome State Fault Refusal :=
  if s.cfg.wbufBytes < s.wlen.toNat then .next (s.finish .badOperand 0)
  else match ethDecode s.et (s.bufBytes .wire s.wlen.toNat) with
    | .error e => .next (s.finishError e)
    | .ok f => .next ((s.setFrame f).finish .ok 0)

/-- `ETHENC` (41_ethernet_frame.md R123): BadOperand exactly when the registers hold no frame. -/
def execEthenc (s : State) : Host.Outcome State Fault Refusal :=
  match s.frame?.bind (ethEncode s.et) with
  | none => .next (s.finish .badOperand 0)
  | some bs => .next ((s.setRaw bs).finish .ok 0)

end Sys2Proof.Machine
end

