-- ==== Sys2Proof/Machine/Dispatch.lean ====
section
/-! DEFINITION. One arm per command (30_encoding.md R94). -/

namespace Sys2Proof.Machine

def exec (i : Instr) (s : State) : Host.Outcome State Fault Refusal :=
  match i with
  | .etres code => Sys2Proof.Machine.execEtres code s
  | .etwc id => Sys2Proof.Machine.execEtwc id s
  | .ethdec => Sys2Proof.Machine.execEthdec s
  | .ethenc => Sys2Proof.Machine.execEthenc s
  | .arpdec => Sys2Proof.Machine.execArpdec s
  | .arpenc => Sys2Proof.Machine.execArpenc s
  | .arpreq => Sys2Proof.Machine.execArpreq s

end Sys2Proof.Machine
end

