-- ==== Sys2Proof/Machine/HostPort.lean ====
section
/-! DEFINITION. The host port: the register map (10_state.md R38), the two primitives by which the host reaches the
block (43_host_access.md R145 to R149), the execution of a command word (10_state.md R35), and one event at the
boundary. -/

namespace Sys2Proof.Machine

/-- The address of a register (10_state.md R38). DESIGN CHOICE (log 21): it is total, so an index outside the block's
windows, which R38 gives no address, gets the window's base plus the index modulo 2^18, which can be another register's
address; `State.maps` and `Line.wf` shut such an index out. -/
def regAddr : Reg → Addr
  | .cmd => 0x00000
  | .status => 0x00001
  | .result => 0x00002
  | .wlen => 0x00003
  | .fType => 0x00004
  | .plen => 0x00005
  | .fDst j => BitVec.ofNat 18 (0x00010 + j)
  | .fSrc j => BitVec.ofNat 18 (0x00018 + j)
  | .aHtype => 0x00020
  | .aPtype => 0x00021
  | .aHln => 0x00022
  | .aPln => 0x00023
  | .aOper => 0x00024
  | .aSha j => BitVec.ofNat 18 (0x00028 + j)
  | .aSpa j => BitVec.ofNat 18 (0x00030 + j)
  | .aTha j => BitVec.ofNat 18 (0x00038 + j)
  | .aTpa j => BitVec.ofNat 18 (0x00040 + j)
  | .et i => BitVec.ofNat 18 (0x00080 + i)
  | .wbuf k => BitVec.ofNat 18 (0x10000 + k)
  | .pbuf k => BitVec.ofNat 18 (0x20000 + k)

/-- The six indices of a MAC register array. -/
def macIndices : List (Fin 6) := [0, 1, 2, 3, 4, 5]

/-- The four indices of an IPv4 register array. -/
def ipv4Indices : List (Fin 4) := [0, 1, 2, 3]

/-- The registers below the three windows: those that every block has (10_state.md R38). -/
def fixedRegs : List Reg :=
  List.flatten
    [[.cmd, .status, .result, .wlen, .fType, .plen], macIndices.map Reg.fDst, macIndices.map Reg.fSrc,
     [.aHtype, .aPtype, .aHln, .aPln, .aOper], macIndices.map Reg.aSha, ipv4Indices.map Reg.aSpa,
     macIndices.map Reg.aTha, ipv4Indices.map Reg.aTpa]

/-- The register an address is mapped to, none for an unmapped address (10_state.md R38): a fixed register, an entry
of `ET` below `ETYPE_N`, or a byte of a buffer window below its capacity. -/
def State.regAt (s : State) (a : Addr) : Option Reg :=
  match fixedRegs.find? (fun r => regAddr r == a) with
  | some r => some r
  | none =>
    if 0x00080 ≤ a.toNat ∧ a.toNat < 0x00080 + s.et.length then some (.et (a.toNat - 0x00080))
    else if 0x10000 ≤ a.toNat ∧ a.toNat < 0x10000 + s.cfg.wbufBytes then some (.wbuf (a.toNat - 0x10000))
    else if 0x20000 ≤ a.toNat ∧ a.toNat < 0x20000 + s.cfg.pbufBytes then some (.pbuf (a.toNat - 0x20000))
    else none

/-- The value of a register, zero-extended to 32 bits; `CMD` reads as 0 (43_host_access.md R145, R147). -/
def State.regValue (s : State) : Reg → Word
  | .cmd => 0
  | .status => s.status
  | .result => s.result
  | .wlen => s.wlen
  | .fType => s.fType.setWidth 32
  | .plen => s.plen
  | .fDst j => (macByte s.fDst j).setWidth 32
  | .fSrc j => (macByte s.fSrc j).setWidth 32
  | .aHtype => s.aHtype.setWidth 32
  | .aPtype => s.aPtype.setWidth 32
  | .aHln => s.aHln.setWidth 32
  | .aPln => s.aPln.setWidth 32
  | .aOper => s.aOper.setWidth 32
  | .aSha j => (macByte s.aSha j).setWidth 32
  | .aSpa j => (ipv4Byte s.aSpa j).setWidth 32
  | .aTha j => (macByte s.aTha j).setWidth 32
  | .aTpa j => (ipv4Byte s.aTpa j).setWidth 32
  | .et i => (s.et.getD i 0).setWidth 32
  | .wbuf k => (s.bufByte .wire k).setWidth 32
  | .pbuf k => (s.bufByte .payload k).setWidth 32

/-- A host write to a register other than `CMD`: the low bits of the data are kept (43_host_access.md R146, R147); a
write to a read-only register is ignored (R148). `CMD` has no storage (10_state.md R35). -/
def State.setReg (s : State) (r : Reg) (v : Word) : State :=
  match r with
  | .cmd => s
  | .status => s
  | .result => s
  | .et _ => s
  | .wlen => { s with wlen := v }
  | .fType => { s with fType := v.setWidth 16 }
  | .plen => { s with plen := v }
  | .fDst j => { s with fDst := setMacByte s.fDst j (v.setWidth 8) }
  | .fSrc j => { s with fSrc := setMacByte s.fSrc j (v.setWidth 8) }
  | .aHtype => { s with aHtype := v.setWidth 16 }
  | .aPtype => { s with aPtype := v.setWidth 16 }
  | .aHln => { s with aHln := v.setWidth 8 }
  | .aPln => { s with aPln := v.setWidth 8 }
  | .aOper => { s with aOper := v.setWidth 16 }
  | .aSha j => { s with aSha := setMacByte s.aSha j (v.setWidth 8) }
  | .aSpa j => { s with aSpa := setIpv4Byte s.aSpa j (v.setWidth 8) }
  | .aTha j => { s with aTha := setMacByte s.aTha j (v.setWidth 8) }
  | .aTpa j => { s with aTpa := setIpv4Byte s.aTpa j (v.setWidth 8) }
  | .wbuf k => s.writeBuf .wire k [v.setWidth 8]
  | .pbuf k => s.writeBuf .payload k [v.setWidth 8]

/-- Executes the command word `w` (10_state.md R35): a command if it decodes to one (30_encoding.md R93), else
IllegalCommand with no other effect (30_encoding.md R95, 60_exceptions.md R162). -/
def runCommand (w : Word) (s : State) : Host.Outcome State Fault Refusal :=
  match decode w with
  | .ok i => exec i s
  | .error _ => .next (s.finish .illegalCommand 0)

/-- The state with the host's side of the port replaced; nothing of the block changes. -/
def State.setPort (s : State) (p : Port) : State := { s with port := p }

/-- `HostRead(addr)` (43_host_access.md R145): the value goes to the host, no state of the block changes; an unmapped
address is refused (R149). -/
def hostRead (a : Addr) (s : State) : Host.Outcome State Fault Refusal :=
  match s.regAt a with
  | none => .refused (.unmappedAccess a)
  | some r => .next (s.setPort { s.port with answers := s.regValue r :: s.port.answers })

/-- `HostWrite(addr, v)` (43_host_access.md R146): a write to `CMD` executes `v`; an unmapped address is refused
(R149). -/
def hostWrite (a : Addr) (v : Word) (s : State) : Host.Outcome State Fault Refusal :=
  match s.regAt a with
  | none => .refused (.unmappedAccess a)
  | some .cmd => runCommand v s
  | some r => .next (s.setReg r v)

/-- `RST` asserted and released (70_reset_and_hazards.md R185, R187): the block's whole state is replaced. The host
and the block's parameters are outside what it resets (log 7, log 10). -/
def State.assertReset (s : State) : State := State.resetOf s.cfg (s.resets + 1) s.port

/-- The host leaves out its next `n` events. -/
def State.skipEvents (s : State) (n : Nat) : State := s.setPort { s.port with pending := s.port.pending.drop n }

/-- The host's decision holds: it has read a value, which under the mask is the one it looks for (log 14). -/
def State.lastAnswerIs (s : State) (mask value : Word) : Bool :=
  match s.port.answers with
  | [] => false
  | a :: _ => a &&& mask == value

/-- One event at the boundary, taken completely (20_memory.md R66, R70). -/
def hostEvent (e : HostEvent) (s : State) : Host.Outcome State Fault Refusal :=
  match e with
  | .read a => hostRead a s
  | .write a v => hostWrite a v s
  | .reset => .next s.assertReset
  | .skipUnless mask value n => .next (if s.lastAnswerIs mask value then s else s.skipEvents n)

/-- The state with a given list of pending events. -/
def State.setPending (s : State) (es : List HostEvent) : State := s.setPort { s.port with pending := es }

/-- One step: the next event of the host, or nothing while there is none (70_reset_and_hazards.md R188; log 2). -/
def hostStep (s : State) : Host.Outcome State Fault Refusal :=
  match s.port.pending with
  | [] => .next s
  | e :: es => hostEvent e (s.setPending es)

end Sys2Proof.Machine
end

