-- ==== Sys2Proof/Machine/Step.lean ====
section
/-! DEFINITION. The step, and how a command word is placed where the next step takes it from. -/

namespace Sys2Proof.Machine

/-- One step of the machine: one event at the block's boundary. -/
def step (s : State) : Host.Outcome State Fault Refusal := hostStep s

/-- The host's next event is the write of a command word to `CMD`: that is where this block, which has no program
counter, gets its next command (10_state.md R35, R40; log 1). A command is one 32-bit word (30_encoding.md R96);
bits at and above `nbits` are 0. -/
def State.withFetchWord (s : State) (nbits w : Nat) : State :=
  s.setPending (.write (regAddr .cmd) (BitVec.ofNat 32 (w % 2 ^ nbits)) :: s.port.pending)

end Sys2Proof.Machine
end

