-- ==== Sys2Proof/Machine/Script.lean ====
section
/-! DEFINITION. Host scripts: how a line is encoded as a host access (30_encoding.md R97) and what the pseudo-commands
expand to (R98). They add no behaviour of the block. -/

namespace Sys2Proof.Machine

/-- The host access a script line is encoded as (30_encoding.md R97). -/
def lineEvent : Line → HostEvent
  | .cmd i => .write (regAddr .cmd) (encode i)
  | .wr r v => .write (regAddr r) v
  | .rd r => .read (regAddr r)
  | .skipUnless mask value n => .skipUnless mask value n

/-- A script as the list of its host accesses, in order (30_encoding.md R97). DESIGN CHOICE (log 21): it does not ask
`Line.wf`; that every line is well formed is the premise of a claim about the script (43_host_access.md R149). -/
def encodeScript (ls : List Line) : List HostEvent := ls.map lineEvent

/-- `WRB arr, b0 ... bn-1`: bytes written in index order to a byte array or buffer (30_encoding.md R98).
DESIGN CHOICE (log 20): `arr` is the list of the array's elements, and bytes past its last element are left out, where
the expansion of R98 would name an element that is no register. -/
def wrb (arr : List Reg) (bs : List Byte) : List Line :=
  List.zipWith (fun r b => .wr r (b.setWidth 32)) arr bs

/-- `LDWIRE b0 ... bn-1` (30_encoding.md R98). A buffer longer than `WBUF_BYTES` cannot be loaded and has no run
(43_host_access.md R151). DESIGN CHOICE (log 21): its expansion is a list of lines all the same; those with an index at
or past the capacity are no well-formed lines (`Line.wf`), and no claim may use them. -/
def ldwire (bs : List Byte) : List Line :=
  wrb ((List.range bs.length).map .wbuf) bs ++ [.wr .wlen (BitVec.ofNat 32 bs.length)]

/-- `LDPAY b0 ... bn-1` (30_encoding.md R98). DESIGN CHOICE (log 21): a payload longer than `PBUF_BYTES` expands too, to
lines that are not well formed. -/
def ldpay (bs : List Byte) : List Line :=
  wrb ((List.range bs.length).map .pbuf) bs ++ [.wr .plen (BitVec.ofNat 32 bs.length)]

/-- `NEWREQ sha, tha, spa, tpa` (30_encoding.md R98). -/
def newreq (sha tha : Mac) (spa tpa : Ipv4) : List Line :=
  List.flatten
    [wrb (macIndices.map Reg.aSha) (macBytes sha), wrb (macIndices.map Reg.aTha) (macBytes tha),
     wrb (ipv4Indices.map Reg.aSpa) (ipv4Bytes spa), wrb (ipv4Indices.map Reg.aTpa) (ipv4Bytes tpa), [.cmd .arpreq]]

/-- `RXARP` (30_encoding.md R98): both conditions are the host's, and the second part stands under both (log 14). -/
def rxarp : List Line :=
  [.cmd .ethdec, .rd .status, .skipUnless 0x0000000F 0 4, .rd .fType, .skipUnless 0xFFFFFFFF 1 2,
   .cmd .arpdec, .rd .status]

/-- `TXARP` (30_encoding.md R98). -/
def txarp : List Line := [.cmd .arpenc, .cmd .ethenc, .rd .status]

end Sys2Proof.Machine
end

