-- ==== Sys2Proof/Safety.lean ====
section
/-! DEFINITION. The terms claims use: what each command may read and write (30_encoding.md R94), what it means that
everything else is unchanged, how a command ends, the widths of the registers, the invariant of the block, and when a
step is safe. -/

namespace Sys2Proof.Machine

/-- The "reads" column of 30_encoding.md R94. `IMM16` is part of the command. -/
def readsReg (i : Instr) (s : State) (r : Reg) : Bool :=
  match i, r with
  | .etres _, .et _ => true
  | .etwc _, .et _ => true
  | .ethdec, .et _ => true
  | .ethdec, .wlen => true
  | .ethdec, .wbuf k => decide (k < s.wlen.toNat)
  | .ethenc, .et _ => true
  | .ethenc, .fDst _ => true
  | .ethenc, .fSrc _ => true
  | .ethenc, .fType => true
  | .ethenc, .plen => true
  | .ethenc, .pbuf k => decide (k < s.plen.toNat)
  | .arpdec, .plen => true
  | .arpdec, .pbuf k => decide (k < 28)
  | .arpenc, .aHtype => true
  | .arpenc, .aPtype => true
  | .arpenc, .aHln => true
  | .arpenc, .aPln => true
  | .arpenc, .aOper => true
  | .arpenc, .aSha _ => true
  | .arpenc, .aSpa _ => true
  | .arpenc, .aTha _ => true
  | .arpenc, .aTpa _ => true
  | _, _ => false

/-- The "writes" column of 30_encoding.md R94, on `ERR = 0`, besides `STATUS`. -/
def writesReg (i : Instr) (s : State) (r : Reg) : Bool :=
  match i, r with
  | .etres _, .result => true
  | .etwc _, .result => true
  | .ethdec, .fDst _ => true
  | .ethdec, .fSrc _ => true
  | .ethdec, .fType => true
  | .ethdec, .pbuf k => decide (k < s.wlen.toNat - 14)
  | .ethdec, .plen => true
  | .ethenc, .wbuf k => decide (k < 14 + s.plen.toNat)
  | .ethenc, .wlen => true
  | .arpdec, .aHtype => true
  | .arpdec, .aPtype => true
  | .arpdec, .aHln => true
  | .arpdec, .aPln => true
  | .arpdec, .aOper => true
  | .arpdec, .aSha _ => true
  | .arpdec, .aSpa _ => true
  | .arpdec, .aTha _ => true
  | .arpdec, .aTpa _ => true
  | .arpenc, .pbuf k => decide (k < 28)
  | .arpenc, .plen => true
  | .arpreq, .aHtype => true
  | .arpreq, .aPtype => true
  | .arpreq, .aHln => true
  | .arpreq, .aPln => true
  | .arpreq, .aOper => true
  | _, _ => false

/-- No register. -/
def noReg (_ : Reg) : Bool := false

/-- From `s` to `t` every register outside `w` reads as before, every byte of both buffers among them, and so does
what is no register: the size of the register file, the parameters, the host's side, the count of resets. -/
def unchangedExcept (w : Reg → Bool) (s t : State) : Prop :=
  (∀ r, w r = false → t.regValue r = s.regValue r) ∧
    t.et = s.et ∧ t.cfg = s.cfg ∧ t.port = s.port ∧ t.resets = s.resets

/-- `STATUS` is written too: every command does. -/
def orStatus (w : Reg → Bool) (r : Reg) : Bool := r == .status || w r

/-- A command that started in `s` ends, in a next state with the given `STATUS` fields (reserved bits 0), having
changed nothing outside `STATUS` and the registers of `w`, and with what `post` says. -/
def ends (o : Host.Outcome State Fault Refusal) (s : State) (err : BitVec 4) (info : BitVec 16) (w : Reg → Bool)
    (post : State → Prop) : Prop :=
  ∃ t, o = .next t ∧ t.status = info ++ ((0 : BitVec 12) ++ err) ∧ unchangedExcept (orStatus w) s t ∧ post t

/-- A command that started in `s` ends with a nonzero result code and no other effect (60_exceptions.md R166). -/
def fails (o : Host.Outcome State Fault Refusal) (s : State) (err : BitVec 4) (info : BitVec 16) : Prop :=
  ends o s err info noReg (fun _ => True)

/-- The register's own width in bits (10_state.md R38). -/
def regWidth : Reg → Nat
  | .cmd => 32
  | .status => 32
  | .result => 32
  | .wlen => 32
  | .plen => 32
  | .fType => 16
  | .aHtype => 16
  | .aPtype => 16
  | .aOper => 16
  | .et _ => 16
  | _ => 8

/-- `CMD`, `STATUS`, `RESULT` and `ET` store nothing a host writes (10_state.md R38). -/
def hostWritable : Reg → Bool
  | .cmd => false
  | .status => false
  | .result => false
  | .et _ => false
  | _ => true

/-- The register exists in this block (10_state.md R38). -/
def State.maps (s : State) (r : Reg) : Bool :=
  match r with
  | .et i => decide (i < s.et.length)
  | r => r.wf s.cfg

/-- The invariant of the block: admissible parameters; the register file as reset loaded it (10_state.md R25); both
buffers in canonical form and inside their capacity (20_memory.md R65); the reserved bits of `STATUS` and `RESULT` 0,
`ERR` one of the seven codes, `INFO` 0 but for an unresolved code, code 6 on strict blocks only (10_state.md R36,
R37; 60_exceptions.md R161, R165); no `VALUE` without `VALID`. -/
structure State.Inv (s : State) : Prop where
  cfgOk : s.cfg.wf
  etLoaded : s.et = s.cfg.etypeTable
  wbufForm : s.wbuf.wf
  wbufIn : s.wbuf.within s.cfg.wbufBytes
  pbufForm : s.pbuf.wf
  pbufIn : s.pbuf.within s.cfg.pbufBytes
  statusReserved : s.status.extractLsb' 4 12 = 0
  errKnown : s.err.toNat ≤ 6
  infoZero : s.err ≠ 2 → s.info = 0
  infoUnresolved : s.err = 2 → s.info ∉ s.et
  profileStrict : s.err = 6 → s.cfg.arpStrictTypes = true
  resultReserved : s.result.extractLsb' 17 15 = 0
  valueZero : s.valid = false → s.value = 0

/-- The host's next event uses no unmapped address: the premise of every claim about a host script
(43_host_access.md R149). -/
def State.nextMapped (s : State) : Prop :=
  match s.port.pending with
  | .read a :: _ => s.regAt a ≠ none
  | .write a _ :: _ => s.regAt a ≠ none
  | _ => True

/-- `n` steps end in a state with the given property. -/
def runsTo (n : Nat) (s : State) (post : State → Prop) : Prop :=
  ∃ t, Sys2Proof.core.run n s = .next t ∧ post t

end Sys2Proof.Machine
end

