-- ==== Sys2Proof/Certificates/Slice0/Obligations.lean ====
section
/-! DEFINITION. The statements for the provers. Each says which rule of spec/ it formalises; `ends o s err info w post`
says that the command completes with that `STATUS`, that every register (each buffer byte is one) outside `STATUS` and
`w` reads as before, and what else holds of the next state. -/

open Sys2Proof Sys2Proof.Machine

/-! ## Encoding -/

/-- 30_encoding.md R92 to R94: a word decodes to a command exactly when it is that command's word, for every
immediate; so each word has one meaning and no bit is dropped. -/
def Obligations.DecodeInvertsEncode : Prop :=
  ∀ (w : Word) (i : Instr), decode w = .ok i ↔ w = encode i

/-- 30_encoding.md R93, R94: a decoder written from the opcode table alone takes the same words, its row names the
command, and at most one row takes a word. -/
def Obligations.TableDecoderAgrees : Prop :=
  (∀ (w : Word) (name : String),
    (∃ i, decode w = .ok i ∧ i.mnemonic = name) ↔ ∃ r ∈ opcodeTable, r.mnemonic = name ∧ r.takes w = true) ∧
  (∀ (w : Word), ∀ r ∈ opcodeTable, ∀ r' ∈ opcodeTable, r.takes w = true → r'.takes w = true → r = r')

/-- 30_encoding.md R97: the word each command line is encoded as, written out, and the other two lines. -/
def Obligations.ScriptLinesEncodeAsListed : Prop :=
  (∀ code : Code, lineEvent (.cmd (.etres code)) = .write 0x00000 (BitVec.ofNat 32 (code.toNat * 65536 + 1))) ∧
    (∀ id : EtherTypeId, lineEvent (.cmd (.etwc id)) = .write 0x00000 (BitVec.ofNat 32 (id.toNat * 65536 + 2))) ∧
    lineEvent (.cmd .ethdec) = .write 0x00000 0x10 ∧ lineEvent (.cmd .ethenc) = .write 0x00000 0x11 ∧
    lineEvent (.cmd .arpdec) = .write 0x00000 0x20 ∧ lineEvent (.cmd .arpenc) = .write 0x00000 0x21 ∧
    lineEvent (.cmd .arpreq) = .write 0x00000 0x22 ∧
    (∀ r v, lineEvent (.wr r v) = .write (regAddr r) v) ∧ (∀ r, lineEvent (.rd r) = .read (regAddr r))

/-- 30_encoding.md R94 and R97: words written out from the spec's encodings decode to what they stand for. -/
def Obligations.SampleWordsDecode : Prop :=
  decode 0x08060001 = .ok (.etres 0x0806) ∧ decode 0x00010002 = .ok (.etwc 1) ∧ decode 0x00000010 = .ok .ethdec ∧
    decode 0x00000011 = .ok .ethenc ∧ decode 0x00000020 = .ok .arpdec ∧ decode 0x00000021 = .ok .arpenc ∧
    decode 0x00000022 = .ok .arpreq ∧ decode 0x00010010 = .error .immediateNotZero ∧
    decode 0x08060101 = .error .zeroFieldNotZero ∧ decode 0x00000000 = .error .opcodeUnassigned

/-- 60_exceptions.md R162, 30_encoding.md R95: a word with `ZERO /= 0`, an unassigned `OP`, or a format N opcode with
`IMM16 /= 0`, written to `CMD`, ends with `ERR = 5`, `INFO = 0` and no other effect. -/
def Obligations.IllegalWordsWriteStatusOnly : Prop :=
  ∀ (w : Word) (s : State) (es : List HostEvent),
    s.port.pending = .write 0x00000 w :: es →
    ((w >>> 8) &&& 0xFF ≠ 0 ∨ w &&& 0xFF ∉ [0x01, 0x02, 0x10, 0x11, 0x20, 0x21, 0x22] ∨
      (w &&& 0xFF ∈ [0x10, 0x11, 0x20, 0x21, 0x22] ∧ w >>> 16 ≠ 0)) →
    fails (step s) (s.setPending es) 5 0

/-- 10_state.md R35: a word written to `CMD` that decodes to a command makes the step that command, at the state whose
host has gone on to its next event; and so does a word placed by the model's own `withFetchWord` (log 18). -/
def Obligations.StepRunsTheDecodedCommand : Prop :=
  ∀ (w : Word) (i : Instr), decode w = .ok i →
    (∀ (s : State) (es : List HostEvent), s.port.pending = .write 0x00000 w :: es →
      step s = exec i (s.setPending es)) ∧
    (∀ s : State, step (s.withFetchWord 32 w.toNat) = exec i s)

/-- 20_memory.md R66, R70, 70_reset_and_hazards.md R188: a step takes exactly the host's next event (its own decision
may also leave out later ones), and with none the block idles. How the host is held is the model's (log 1, 2, 3, 14). -/
def Obligations.OneEventPerStep : Prop :=
  (∀ s : State, s.port.pending = [] → step s = .next s) ∧
    (∀ (s t : State) (e : HostEvent) (es : List HostEvent), s.port.pending = e :: es → step s = .next t →
      (∀ m v n, e ≠ .skipUnless m v n) → t.port.pending = es) ∧
    (∀ (s : State) (m v a : Word) (n : Nat) (es : List HostEvent) (as : List Word),
      s.port.pending = .skipUnless m v n :: es → s.port.answers = a :: as →
      step s = .next (s.setPending (if a &&& m = v then es else es.drop n)))

/-! ## Registry -/

/-- 40_etype_registry.md R110, R111: over distinct entries, `Resolve` finds exactly the id whose entry has the code, and
answers none exactly when no entry has it; `WireCodeOf` gives the entry, for exactly the valid ids. -/
def Obligations.ResolveAndWireCodeOf : Prop :=
  ∀ (et : List Code), et.Nodup → et.length ≤ 65536 →
    (∀ id code, resolve et code = some id ↔ et[id.toNat]? = some code) ∧
    (∀ code, resolve et code = none ↔ code ∉ et) ∧
    (∀ id code, wireCodeOf et id = some code ↔ et[id.toNat]? = some code) ∧
    (∀ id, id.toNat < et.length ↔ ∃ code, wireCodeOf et id = some code)

/-- 40_etype_registry.md R112: ETRES, both branches. -/
def Obligations.EtresResolvesOrAnswersNone : Prop :=
  ∀ (s : State) (code : Code), s.et.Nodup → s.et.length ≤ 65536 →
    (encode (.etres code)).toNat = code.toNat * 65536 + 0x01 ∧
    (∀ id : EtherTypeId, s.et[id.toNat]? = some code →
      ends (exec (.etres code) s) s 0 0 (· == .result)
        (fun t => t.result.toNat = 65536 + id.toNat ∧ t.valid = true ∧ t.value = id)) ∧
    (code ∉ s.et →
      ends (exec (.etres code) s) s 0 0 (· == .result) (fun t => t.result = 0 ∧ t.valid = false ∧ t.value = 0))

/-- 40_etype_registry.md R113: ETWC, both branches. -/
def Obligations.EtwcGivesTheCodeOrBadOperand : Prop :=
  ∀ (s : State) (id : EtherTypeId),
    (encode (.etwc id)).toNat = id.toNat * 65536 + 0x02 ∧
    (∀ code : Code, s.et[id.toNat]? = some code →
      ends (exec (.etwc id) s) s 0 0 (· == .result)
        (fun t => t.result.toNat = 65536 + code.toNat ∧ t.valid = true ∧ t.value = code)) ∧
    (s.et.length ≤ id.toNat → fails (exec (.etwc id) s) s 4 0)

/-- 40_etype_registry.md R114, 95_test_vectors.md V9: for every registered id, ETWC followed by ETRES of the code it
gave returns the id, in every state whose register file has distinct entries. -/
def Obligations.EtwcThenEtresReturnsTheId : Prop :=
  ∀ (s : State) (id : EtherTypeId), s.et.Nodup → s.et.length ≤ 65536 → id.toNat < s.et.length →
    ∃ t u, exec (.etwc id) s = .next t ∧ exec (.etres t.value) t = .next u ∧
      u.valid = true ∧ u.value = id ∧ u.err = 0

/-! ## Ethernet frames -/

/-- 41_ethernet_frame.md R122: ETHDEC, every branch. The type field is `WBUF[12] * 256 + WBUF[13]`. -/
def Obligations.EthdecDecodesOrFailsByKind : Prop :=
  ∀ (s : State) (code : Code), s.et.Nodup → s.et.length ≤ 65536 →
    code.toNat = (s.bufByte .wire 12).toNat * 256 + (s.bufByte .wire 13).toNat →
    encode .ethdec = 0x00000010 ∧
    (s.cfg.wbufBytes < s.wlen.toNat → fails (exec .ethdec s) s 4 0) ∧
    (s.wlen.toNat ≤ s.cfg.wbufBytes → s.wlen.toNat < 14 → fails (exec .ethdec s) s 1 0) ∧
    (s.wlen.toNat ≤ s.cfg.wbufBytes → 14 ≤ s.wlen.toNat → code ∉ s.et → fails (exec .ethdec s) s 2 code) ∧
    (s.wlen.toNat ≤ s.cfg.wbufBytes → 14 ≤ s.wlen.toNat →
      ∀ id : EtherTypeId, s.et[id.toNat]? = some code →
        ends (exec .ethdec s) s 0 0 (writesReg .ethdec s) (fun t =>
          (∀ j : Fin 6, macByte t.fDst j = s.bufByte .wire j) ∧
          (∀ j : Fin 6, macByte t.fSrc j = s.bufByte .wire (6 + j)) ∧
          t.fType = id ∧ t.plen.toNat = s.wlen.toNat - 14 ∧
          (∀ k, k < s.wlen.toNat - 14 → t.bufByte .payload k = s.bufByte .wire (14 + k))))

/-- 41_ethernet_frame.md R123: ETHENC, both branches. -/
def Obligations.EthencEncodesOrBadOperand : Prop :=
  ∀ (s : State),
    encode .ethenc = 0x00000011 ∧
    (s.cfg.pbufBytes < s.plen.toNat ∨ s.et.length ≤ s.fType.toNat → fails (exec .ethenc s) s 4 0) ∧
    (s.plen.toNat ≤ s.cfg.pbufBytes → s.cfg.wbufBytes ≤ 65536 →
      ∀ code : Code, s.et[s.fType.toNat]? = some code →
        ends (exec .ethenc s) s 0 0 (writesReg .ethenc s) (fun t =>
          (∀ j : Fin 6, t.bufByte .wire j = macByte s.fDst j) ∧
          (∀ j : Fin 6, t.bufByte .wire (6 + j) = macByte s.fSrc j) ∧
          (t.bufByte .wire 12).toNat = code.toNat / 256 ∧ (t.bufByte .wire 13).toNat = code.toNat % 256 ∧
          (∀ k, k < s.plen.toNat → t.bufByte .wire (14 + k) = s.bufByte .payload k) ∧
          t.wlen.toNat = 14 + s.plen.toNat))

/-- 41_ethernet_frame.md R120 (so R126 (c), (d), (e)): when `EthDecode` succeeds, with what, and the only two ways it
fails, length first. -/
def Obligations.EthDecodeChecksLengthThenType : Prop :=
  ∀ (et : List Code) (b : List Byte),
    (b.length < 14 → ethDecode et b = .error .insufficientData) ∧
    (∀ code : Code, 14 ≤ b.length → [code.extractLsb' 8 8, code.extractLsb' 0 8] = (b.drop 12).take 2 →
      (resolve et code = none → ethDecode et b = .error (.unsupportedEtherType code)) ∧
      (∀ id, resolve et code = some id → ∃ f, ethDecode et b = .ok f ∧
        macBytes f.dst = b.take 6 ∧ macBytes f.src = (b.drop 6).take 6 ∧ f.type = id ∧ f.payload = b.drop 14))

/-- 41_ethernet_frame.md R121: `EthEncode` is total on the frames with a valid type and is the concatenation, of length
`14 + len(payload)`; and R126 (a), the source's round trip: the encoding decodes to the frame. -/
def Obligations.FrameDecodesFromItsEncoding : Prop :=
  ∀ (et : List Code) (f : EthFrame) (code : Code), et.Nodup → et.length ≤ 65536 → et[f.type.toNat]? = some code →
    ∃ b, ethEncode et f = some b ∧ b = macBytes f.dst ++ macBytes f.src ++ be16bytes code ++ f.payload ∧
      b.length = 14 + f.payload.length ∧ ethDecode et b = .ok f

/-- 41_ethernet_frame.md R126 (b) (marked derived by the spec): every decodable buffer is the encoding of its frame. -/
def Obligations.DecodedFrameEncodesToItsBuffer : Prop :=
  ∀ (et : List Code) (b : List Byte) (f : EthFrame), et.Nodup → et.length ≤ 65536 →
    ethDecode et b = .ok f → ethEncode et f = some b

/-- 41_ethernet_frame.md R126 (a) of the commands (95_test_vectors.md V38): ETHENC then ETHDEC leave the frame the
registers held. -/
def Obligations.EthencThenEthdecKeepsTheFrame : Prop :=
  ∀ (s : State) (f : EthFrame), s.Inv → s.frame? = some f →
    ∃ t u, exec .ethenc s = .next t ∧ exec .ethdec t = .next u ∧ u.frame? = some f ∧ u.err = 0

/-- 41_ethernet_frame.md R126 (b) of the commands (95_test_vectors.md V37, P5): after an ETHDEC that succeeds, ETHENC
writes the buffer that was decoded, whatever the host has meanwhile done to `WBUF` and `WLEN`. -/
def Obligations.EthdecThenEthencRestoresTheBuffer : Prop :=
  ∀ (s t : State) (wbuf : Memory) (wlen : Word), s.Inv → exec .ethdec s = .next t → t.err = 0 →
    ∃ u, exec .ethenc { t with wbuf := wbuf, wlen := wlen } = .next u ∧ u.err = 0 ∧ u.wlen = s.wlen ∧
      ∀ k, k < s.wlen.toNat → u.bufByte .wire k = s.bufByte .wire k

/-! ## ARP packets -/

/-- 42_arp_packet.md R135 with the layout R134: ARPDEC, every branch, for both values of `ARP_STRICT_TYPES` (R133);
the nine ranges are read each once (R138). -/
def Obligations.ArpdecDecodesOrFailsByKind : Prop :=
  ∀ (s : State) (htype ptype oper : BitVec 16),
    htype.toNat = (s.bufByte .payload 0).toNat * 256 + (s.bufByte .payload 1).toNat →
    ptype.toNat = (s.bufByte .payload 2).toNat * 256 + (s.bufByte .payload 3).toNat →
    oper.toNat = (s.bufByte .payload 6).toNat * 256 + (s.bufByte .payload 7).toNat →
    encode .arpdec = 0x00000020 ∧
    (s.cfg.pbufBytes < s.plen.toNat → fails (exec .arpdec s) s 4 0) ∧
    (s.plen.toNat ≤ s.cfg.pbufBytes → s.plen.toNat < 28 → fails (exec .arpdec s) s 1 0) ∧
    (s.plen.toNat ≤ s.cfg.pbufBytes → 28 ≤ s.plen.toNat →
      (s.bufByte .payload 4 ≠ 6 ∨ s.bufByte .payload 5 ≠ 4) → fails (exec .arpdec s) s 3 0) ∧
    (s.plen.toNat ≤ s.cfg.pbufBytes → 28 ≤ s.plen.toNat → s.bufByte .payload 4 = 6 → s.bufByte .payload 5 = 4 →
      s.cfg.arpStrictTypes = true → (htype ≠ 1 ∨ ptype ≠ 0x0800) → fails (exec .arpdec s) s 6 0) ∧
    (s.plen.toNat ≤ s.cfg.pbufBytes → 28 ≤ s.plen.toNat → s.bufByte .payload 4 = 6 → s.bufByte .payload 5 = 4 →
      (s.cfg.arpStrictTypes = true → htype = 1 ∧ ptype = 0x0800) →
      ends (exec .arpdec s) s 0 0 (writesReg .arpdec s) (fun t =>
        t.aHtype = htype ∧ t.aPtype = ptype ∧ t.aHln = 6 ∧ t.aPln = 4 ∧ t.aOper = oper ∧
        (∀ j : Fin 6, macByte t.aSha j = s.bufByte .payload (8 + j)) ∧
        (∀ j : Fin 4, ipv4Byte t.aSpa j = s.bufByte .payload (14 + j)) ∧
        (∀ j : Fin 6, macByte t.aTha j = s.bufByte .payload (18 + j)) ∧
        (∀ j : Fin 4, ipv4Byte t.aTpa j = s.bufByte .payload (24 + j))))

/-- 42_arp_packet.md R136: ARPENC always succeeds and writes the 28 bytes of the layout R134, each 16-bit field high
byte first, whether or not the packet is profile-valid. -/
def Obligations.ArpencSerialisesThePacket : Prop :=
  ∀ (s : State),
    encode .arpenc = 0x00000021 ∧
    ends (exec .arpenc s) s 0 0 (writesReg .arpenc s) (fun t =>
      t.plen = 28 ∧
      t.bufBytes .payload 28 =
        [s.aHtype.extractLsb' 8 8, s.aHtype.extractLsb' 0 8, s.aPtype.extractLsb' 8 8, s.aPtype.extractLsb' 0 8,
         s.aHln, s.aPln, s.aOper.extractLsb' 8 8, s.aOper.extractLsb' 0 8,
         s.aSha.b0, s.aSha.b1, s.aSha.b2, s.aSha.b3, s.aSha.b4, s.aSha.b5,
         s.aSpa.b0, s.aSpa.b1, s.aSpa.b2, s.aSpa.b3,
         s.aTha.b0, s.aTha.b1, s.aTha.b2, s.aTha.b3, s.aTha.b4, s.aTha.b5,
         s.aTpa.b0, s.aTpa.b1, s.aTpa.b2, s.aTpa.b3])

/-- 42_arp_packet.md R137, R132: ARPREQ always succeeds, writes the five constants, leaves the four address registers,
and the registers then hold the new request of those addresses, which is profile-valid. -/
def Obligations.ArpreqMakesANewRequest : Prop :=
  ∀ (s : State),
    encode .arpreq = 0x00000022 ∧
    ends (exec .arpreq s) s 0 0 (writesReg .arpreq s) (fun t =>
      t.aHtype = 1 ∧ t.aPtype = 0x0800 ∧ t.aHln = 6 ∧ t.aPln = 4 ∧ t.aOper = 1 ∧
      t.packet = arpNewRequest s.aSha s.aTha s.aSpa s.aTpa ∧ profileValid t.packet)

/-- 42_arp_packet.md R130 (so R139 (d), (f)): the order of `ArpDecode`'s tests, its only failures, and the packet it
gives otherwise, for both readings of R133. -/
def Obligations.ArpDecodeChecksInOrder : Prop :=
  ∀ (strict : Bool) (b : List Byte),
    (b.length < 28 → arpDecode strict b = .error .insufficientData) ∧
    (28 ≤ b.length → (b.drop 4).take 2 ≠ [6, 4] → arpDecode strict b = .error .unsupportedAddressLength) ∧
    (28 ≤ b.length → (b.drop 4).take 2 = [6, 4] → strict = true → b.take 4 ≠ [0, 1, 8, 0] →
      arpDecode strict b = .error .unsupportedArpProfile) ∧
    (28 ≤ b.length → (b.drop 4).take 2 = [6, 4] → (strict = true → b.take 4 = [0, 1, 8, 0]) →
      ∃ p, arpDecode strict b = .ok p ∧ be16bytes p.htype = b.take 2 ∧ be16bytes p.ptype = (b.drop 2).take 2 ∧
        [p.hlen, p.plen] = [6, 4] ∧ be16bytes p.oper = (b.drop 6).take 2 ∧
        macBytes p.sha = (b.drop 8).take 6 ∧ ipv4Bytes p.spa = (b.drop 14).take 4 ∧
        macBytes p.tha = (b.drop 18).take 6 ∧ ipv4Bytes p.tpa = (b.drop 24).take 4)

/-- 42_arp_packet.md R131: `ArpEncode` is the concatenation of the nine fields, 28 bytes; and R139 (a), the source's
round trip, for both readings of R133: every profile-valid packet decodes from its encoding, with any bytes after it
(R140). -/
def Obligations.PacketDecodesFromItsEncoding : Prop :=
  ∀ (strict : Bool) (p : ArpPacket) (tail : List Byte),
    (arpEncode p).length = 28 ∧
    arpEncode p = be16bytes p.htype ++ be16bytes p.ptype ++ [p.hlen] ++ [p.plen] ++ be16bytes p.oper ++
      macBytes p.sha ++ ipv4Bytes p.spa ++ macBytes p.tha ++ ipv4Bytes p.tpa ∧
    (profileValid p → arpDecode strict (arpEncode p ++ tail) = .ok p)

/-- 42_arp_packet.md R139 (a) second sentence, (b), (c) (marked derived by the spec): without the strict test the
length bytes alone decide; and a decoded packet encodes to the first 28 bytes it was read from. -/
def Obligations.DecodedPacketEncodesToItsBytes : Prop :=
  (∀ p : ArpPacket, p.hlen = 6 → p.plen = 4 → arpDecode false (arpEncode p) = .ok p) ∧
    (∀ (strict : Bool) (p : ArpPacket), (p.hlen ≠ 6 ∨ p.plen ≠ 4) →
      arpDecode strict (arpEncode p) = .error .unsupportedAddressLength) ∧
    (∀ (strict : Bool) (b : List Byte) (p : ArpPacket), arpDecode strict b = .ok p →
      arpEncode p = b.take 28 ∧ (arpEncode p = b ↔ b.length = 28))

/-- 95_test_vectors.md V56, 42_arp_packet.md R139 (e) of the commands: ARPREQ, ARPENC, ARPDEC leave the request's
registers, on strict blocks too. -/
def Obligations.RequestSurvivesEncodeAndDecode : Prop :=
  ∀ (s : State), s.cfg.wf →
    ∃ t u v, exec .arpreq s = .next t ∧ exec .arpenc t = .next u ∧ exec .arpdec u = .next v ∧
      v.packet = arpNewRequest s.aSha s.aTha s.aSpa s.aTpa ∧ v.err = 0

/-! ## Rules about every command -/

/-- 30_encoding.md R94, 10_state.md R34: a command changes nothing outside `STATUS` and its "writes" column. -/
def Obligations.CommandsWriteTheirColumnOnly : Prop :=
  ∀ (i : Instr) (s t : State), exec i s = .next t →
    unchangedExcept (orStatus (writesReg i s)) s t

/-- 60_exceptions.md R166: a command word that ends with `ERR /= 0` writes `STATUS` and nothing else. -/
def Obligations.FailingCommandsWriteStatusOnly : Prop :=
  ∀ (w : Word) (s t : State), runCommand w s = .next t → t.err ≠ 0 → unchangedExcept (orStatus noReg) s t

/-- 60_exceptions.md R161: which codes a command word can end with; every word ends, in a next state. -/
def Obligations.ResultCodesOfEachCommand : Prop :=
  ∀ (w : Word) (s : State), ∃ t, runCommand w s = .next t ∧
    match decode w with
    | .ok (.etres _) => t.err = 0
    | .ok (.etwc _) => t.err = 0 ∨ t.err = 4
    | .ok .ethdec => t.err = 0 ∨ t.err = 1 ∨ t.err = 2 ∨ t.err = 4
    | .ok .ethenc => t.err = 0 ∨ t.err = 4
    | .ok .arpdec =>
      t.err = 0 ∨ t.err = 1 ∨ t.err = 3 ∨ t.err = 4 ∨ (t.err = 6 ∧ s.cfg.arpStrictTypes = true)
    | .ok .arpenc => t.err = 0
    | .ok .arpreq => t.err = 0
    | .error _ => t.err = 5

/-- 60_exceptions.md R165: `INFO` is the unresolved wire code `be16(WBUF, 12)` when `ERR = 2`, and 0 otherwise. -/
def Obligations.InfoIsTheUnresolvedCode : Prop :=
  ∀ (w : Word) (s t : State), runCommand w s = .next t →
    (t.err = 2 → t.info.toNat = (s.bufByte .wire 12).toNat * 256 + (s.bufByte .wire 13).toNat ∧ t.info ∉ s.et) ∧
    (t.err ≠ 2 → t.info = 0)

/-- 10_state.md R41, 30_encoding.md R94: no command's result depends on anything but the parameters and what its
"reads" column names: two states that agree there end with the same `STATUS` and, on success, the same values in all
the command writes. -/
def Obligations.CommandsDependOnTheirReadsOnly : Prop :=
  ∀ (i : Instr) (s₁ s₂ t₁ t₂ : State), s₁.cfg = s₂.cfg → s₁.et = s₂.et →
    (∀ r, readsReg i s₁ r = true → s₁.regValue r = s₂.regValue r) →
    exec i s₁ = .next t₁ → exec i s₂ = .next t₂ →
    t₁.status = t₂.status ∧ (t₁.err = 0 → ∀ r, writesReg i s₁ r = true → t₁.regValue r = t₂.regValue r)

/-- 20_memory.md R67 (marked derived by the spec): executing the same command word twice leaves the same state as
executing it once. -/
def Obligations.CommandsAreIdempotent : Prop :=
  ∀ (w : Word) (s t : State), runCommand w s = .next t → runCommand w t = .next t

/-- 10_state.md R36: `STATUS` is not sticky and no command's behaviour depends on it: whatever it held, the command
leaves the same state. -/
def Obligations.StatusIsNotSticky : Prop :=
  ∀ (w x : Word) (s : State), runCommand w { s with status := x } = runCommand w s

/-! ## The host port -/

/-- 10_state.md R38: the addresses, widths and access of the register map, row by row. -/
def Obligations.RegisterMapIsAsListed : Prop :=
  regAddr .cmd = 0x00000 ∧ regAddr .status = 0x00001 ∧ regAddr .result = 0x00002 ∧ regAddr .wlen = 0x00003 ∧
    regAddr .fType = 0x00004 ∧ regAddr .plen = 0x00005 ∧
    (∀ j : Fin 6, (regAddr (.fDst j)).toNat = 0x00010 + j ∧ (regAddr (.fSrc j)).toNat = 0x00018 + j ∧
      (regAddr (.aSha j)).toNat = 0x00028 + j ∧ (regAddr (.aTha j)).toNat = 0x00038 + j) ∧
    regAddr .aHtype = 0x00020 ∧ regAddr .aPtype = 0x00021 ∧ regAddr .aHln = 0x00022 ∧ regAddr .aPln = 0x00023 ∧
    regAddr .aOper = 0x00024 ∧
    (∀ j : Fin 4, (regAddr (.aSpa j)).toNat = 0x00030 + j ∧ (regAddr (.aTpa j)).toNat = 0x00040 + j) ∧
    (∀ i, i < 128 → (regAddr (.et i)).toNat = 0x00080 + i) ∧
    (∀ k, k < 65536 → (regAddr (.wbuf k)).toNat = 0x10000 + k ∧ (regAddr (.pbuf k)).toNat = 0x20000 + k) ∧
    (∀ r, regWidth r = 32 ↔ r ∈ [Reg.cmd, .status, .result, .wlen, .plen]) ∧
    (∀ r, regWidth r = 16 ↔ r ∈ [Reg.fType, .aHtype, .aPtype, .aOper] ∨ ∃ i, r = .et i) ∧
    (∀ r, regWidth r = 32 ∨ regWidth r = 16 ∨ regWidth r = 8) ∧
    (∀ r, hostWritable r = false ↔ r ∈ [Reg.cmd, .status, .result] ∨ ∃ i, r = .et i)

/-- 10_state.md R38: an address is mapped exactly to the register whose address it is, among those the block has. -/
def Obligations.AddressMapIsOneToOne : Prop :=
  ∀ (s : State) (a : Addr) (r : Reg), s.Inv → (s.regAt a = some r ↔ s.maps r = true ∧ regAddr r = a)

/-- 10_state.md R38: the unmapped addresses are the gaps the rule lists. -/
def Obligations.UnmappedAddressesAreTheListedGaps : Prop :=
  ∀ (s : State) (a : Addr), s.Inv →
    (s.regAt a = none ↔
      (0x00006 ≤ a.toNat ∧ a.toNat ≤ 0x0000F) ∨ a.toNat = 0x00016 ∨ a.toNat = 0x00017 ∨ a.toNat = 0x0001E ∨
      a.toNat = 0x0001F ∨ (0x00025 ≤ a.toNat ∧ a.toNat ≤ 0x00027) ∨ a.toNat = 0x0002E ∨ a.toNat = 0x0002F ∨
      (0x00034 ≤ a.toNat ∧ a.toNat ≤ 0x00037) ∨ a.toNat = 0x0003E ∨ a.toNat = 0x0003F ∨
      (0x00044 ≤ a.toNat ∧ a.toNat ≤ 0x0007F) ∨
      (0x00080 + s.cfg.etypeN ≤ a.toNat ∧ a.toNat ≤ 0x0FFFF) ∨
      (0x10000 + s.cfg.wbufBytes ≤ a.toNat ∧ a.toNat ≤ 0x1FFFF) ∨
      0x20000 + s.cfg.pbufBytes ≤ a.toNat)

/-- 43_host_access.md R145: a read of a mapped register returns its value zero-extended (`CMD` gives 0) and changes
no state of the block; a read of an unmapped address is refused. That the value goes to the front of a list of answers
is the model's choice (log 3). -/
def Obligations.HostReadReturnsTheRegister : Prop :=
  ∀ (s : State) (es : List HostEvent), s.Inv →
    (∀ r, s.maps r = true → s.port.pending = .read (regAddr r) :: es →
      step s = .next (s.setPort { pending := es, answers := s.regValue r :: s.port.answers }) ∧
        (s.regValue r).toNat < 2 ^ regWidth r ∧ (r = .cmd → s.regValue r = 0)) ∧
    (∀ a, (∀ r, s.maps r = true → regAddr r ≠ a) → s.port.pending = .read a :: es →
      step s = .refused (.unmappedAccess a))

/-- 43_host_access.md R146 with R147, R148: a write to `CMD` executes the word; one to a read-only register does
nothing; one to a read-write register keeps the low `w` bits of the data and changes that register and nothing else;
one to an unmapped address is refused. -/
def Obligations.HostWriteStoresTheLowBits : Prop :=
  ∀ (s : State) (v : Word) (es : List HostEvent), s.Inv →
    (s.port.pending = .write 0x00000 v :: es → step s = runCommand v (s.setPending es)) ∧
    (∀ r, s.maps r = true → r ≠ .cmd → hostWritable r = false → s.port.pending = .write (regAddr r) v :: es →
      step s = .next (s.setPending es)) ∧
    (∀ r, s.maps r = true → hostWritable r = true → s.port.pending = .write (regAddr r) v :: es →
      ∃ t, step s = .next t ∧ (t.regValue r).toNat = v.toNat % 2 ^ regWidth r ∧
        unchangedExcept (· == r) (s.setPending es) t) ∧
    (∀ a, (∀ r, s.maps r = true → regAddr r ≠ a) → s.port.pending = .write a v :: es →
      step s = .refused (.unmappedAccess a))

/-- 43_host_access.md R148: a write to `STATUS`, `RESULT` or any `ET[i]` is accepted and ignored; a read of `CMD`
returns 0. That the 0 goes to the front of a list of answers is the model's choice (log 3). -/
def Obligations.ReadOnlyRegistersIgnoreWrites : Prop :=
  ∀ (s : State) (v : Word) (es : List HostEvent), s.Inv →
    (s.port.pending = .write 0x00001 v :: es → step s = .next (s.setPending es)) ∧
    (s.port.pending = .write 0x00002 v :: es → step s = .next (s.setPending es)) ∧
    (∀ i, i < s.et.length → s.port.pending = .write (BitVec.ofNat 18 (0x00080 + i)) v :: es →
      step s = .next (s.setPending es)) ∧
    (s.port.pending = .read 0x00000 :: es →
      step s = .next (s.setPort { pending := es, answers := 0 :: s.port.answers }))

/-- 43_host_access.md R149, 60_exceptions.md R167: the one stop of the machine: a step is refused exactly when the
host's next event uses an unmapped address, and otherwise it gives a next state. -/
def Obligations.OnlyUnmappedAccessesStop : Prop :=
  ∀ (s : State),
    (s.nextMapped → ∃ t, step s = .next t) ∧
    (¬ s.nextMapped → ∃ a es, step s = .refused (.unmappedAccess a) ∧ s.regAt a = none ∧
      (s.port.pending = .read a :: es ∨ ∃ v, s.port.pending = .write a v :: es))

/-- 10_state.md R25: the register file is written by reset and by nothing else; reset loads it from `ETYPE_TABLE`; the
host reads `ET[i]` at `0x00080 + i`. That the value goes to the front of a list of answers is the model's choice
(log 3). -/
def Obligations.OnlyResetWritesTheRegisterFile : Prop :=
  (∀ (s t : State), step s = .next t →
    (∀ es, s.port.pending = .reset :: es → t.et = s.cfg.etypeTable) ∧
    ((∀ es, s.port.pending ≠ .reset :: es) → t.et = s.et)) ∧
  (∀ (s : State) (es : List HostEvent) (i : Nat) (code : Code), s.Inv → s.et[i]? = some code →
    s.port.pending = .read (BitVec.ofNat 18 (0x00080 + i)) :: es →
    step s = .next (s.setPort { pending := es, answers := code.setWidth 32 :: s.port.answers }))

/-- 43_host_access.md R146, R152: `STATUS` and `RESULT` are changed by commands and reset only. -/
def Obligations.OnlyCommandsWriteStatusAndResult : Prop :=
  ∀ (s t : State), step s = .next t → (∀ v es, s.port.pending ≠ .write 0x00000 v :: es) →
    (∀ es, s.port.pending ≠ .reset :: es) → t.status = s.status ∧ t.result = s.result

/-- 10_state.md R33, 70_reset_and_hazards.md R192: what has been decoded does not change when the buffer it came from
is overwritten: however often the host writes `WBUF` and `WLEN`, the frame the registers hold is the same, and however
often it also writes `PBUF` and `PLEN`, the header registers and the packet are. -/
def Obligations.DecodedValuesAreOwnedCopies : Prop :=
  ∀ (s : State) (ws : List (Reg × Word)), s.Inv → (∀ x ∈ ws, s.maps x.1 = true) →
    s.port.pending = ws.map (fun x => .write (regAddr x.1) x.2) →
    ((∀ x ∈ ws, x.1 = .wlen ∨ ∃ k, x.1 = .wbuf k) →
      runsTo ws.length s (fun t => t.frame? = s.frame? ∧ t.packet = s.packet)) ∧
    ((∀ x ∈ ws, x.1 = .wlen ∨ x.1 = .plen ∨ (∃ k, x.1 = .wbuf k) ∨ ∃ k, x.1 = .pbuf k) →
      runsTo ws.length s (fun t => t.packet = s.packet ∧ t.fDst = s.fDst ∧ t.fSrc = s.fSrc ∧ t.fType = s.fType))

/-- 43_host_access.md R151, 30_encoding.md R98: the accesses of `LDWIRE b` hand the block the buffer `b`. -/
def Obligations.LoadWireHandsOverTheBuffer : Prop :=
  ∀ (s : State) (b : List Byte), s.Inv → b.length ≤ s.cfg.wbufBytes →
    s.port.pending = encodeScript (ldwire b) →
    runsTo (b.length + 1) s (fun t => t.bufBytes .wire b.length = b ∧ t.wlen.toNat = b.length ∧
      t.frame? = s.frame? ∧ t.packet = s.packet ∧ t.status = s.status ∧ t.port.pending = [])

/-- 30_encoding.md R98 (`NEWREQ`), 42_arp_packet.md R132: its accesses leave the new request of the four addresses, in
the source's argument order. -/
def Obligations.NewRequestScriptBuildsTheRequest : Prop :=
  ∀ (s : State) (sha tha : Mac) (spa tpa : Ipv4), s.Inv →
    s.port.pending = encodeScript (newreq sha tha spa tpa) →
    runsTo 21 s (fun t => t.packet = arpNewRequest sha tha spa tpa ∧ t.err = 0 ∧ t.port.pending = [])

/-- 30_encoding.md R98 (`TXARP`), 41_ethernet_frame.md R123, 42_arp_packet.md R136: the source's outbound flow: the
wire buffer becomes the frame of the header registers around the packet of the ARP registers, and the host reads
`STATUS = 0`. The list of answers is the model's choice (log 3). -/
def Obligations.TransmitPathFramesThePacket : Prop :=
  ∀ (s : State) (code : Code), s.Inv → s.et[s.fType.toNat]? = some code →
    s.port.pending = encodeScript txarp →
    runsTo 3 s (fun t => t.wlen = 42 ∧
      t.bufBytes .wire 42 = macBytes s.fDst ++ macBytes s.fSrc ++ be16bytes code ++ arpEncode s.packet ∧
      t.port.answers = 0 :: s.port.answers)

/-- 30_encoding.md R98 (`RXARP`), 41_ethernet_frame.md R122, 42_arp_packet.md R135: the source's inbound flow: when
the wire buffer holds a frame of type ARP around a profile-valid packet and any trailing bytes, the packet ends up in
the ARP registers, and the host has read `STATUS = 0`, `F_TYPE = 1`, `STATUS = 0`. The list of answers and the form of the
host's decision are the model's choices (log 3, log 14). -/
def Obligations.ReceivePathDeliversThePacket : Prop :=
  ∀ (s : State) (dst src : Mac) (p : ArpPacket) (tail : List Byte), s.Inv → profileValid p →
    42 + tail.length ≤ s.cfg.wbufBytes → s.wlen.toNat = 42 + tail.length →
    s.bufBytes .wire (42 + tail.length) = macBytes dst ++ macBytes src ++ [0x08, 0x06] ++ arpEncode p ++ tail →
    s.port.pending = encodeScript rxarp →
    runsTo 7 s (fun t => t.packet = p ∧ t.fDst = dst ∧ t.fSrc = src ∧
      t.port.answers = 0 :: 1 :: 0 :: s.port.answers ∧ t.port.pending = [])

/-- 30_encoding.md R98 (`RXARP`), its other branches: when ETHDEC fails the host reads its `STATUS` and stops; when the
type is not ARP it reads `F_TYPE` too and stops, and the ARP registers are as before; when ARPDEC fails the frame is in
the registers, the ARP registers are as before, and the host reads the code. The list of answers, the form of the
host's decision and the place of the last `RD STATUS` are the model's (log 3, log 14). -/
def Obligations.ReceivePathStopsWhereItFails : Prop :=
  ∀ (s : State), s.Inv → s.port.pending = encodeScript rxarp →
    ((∀ f, s.wlen.toNat ≤ s.cfg.wbufBytes → ethDecode s.et (s.bufBytes .wire s.wlen.toNat) ≠ .ok f) →
      runsTo 3 s (fun t => t.err ≠ 0 ∧ t.frame? = s.frame? ∧ t.packet = s.packet ∧
        t.port.answers = t.status :: s.port.answers ∧ t.port.pending = [])) ∧
    (∀ f, s.wlen.toNat ≤ s.cfg.wbufBytes → ethDecode s.et (s.bufBytes .wire s.wlen.toNat) = .ok f →
      (f.type ≠ 1 → runsTo 5 s (fun t => t.err = 0 ∧ t.frame? = some f ∧ t.packet = s.packet ∧
        t.port.answers = f.type.setWidth 32 :: 0 :: s.port.answers ∧ t.port.pending = [])) ∧
      (f.type = 1 → (∀ p, arpDecode s.cfg.arpStrictTypes f.payload ≠ .ok p) →
        runsTo 7 s (fun t => t.err ≠ 0 ∧ t.frame? = some f ∧ t.packet = s.packet ∧
          t.port.answers = t.status :: 1 :: 0 :: s.port.answers ∧ t.port.pending = [])))

/-! ## Reset and the invariant -/

/-- 10_state.md R43: `RST`, in any state, leaves the register file loaded from `ETYPE_TABLE` and every register but
`ET` and the buffer bytes 0. -/
def Obligations.ResetSetsEveryScalar : Prop :=
  ∀ (s : State) (es : List HostEvent), s.port.pending = .reset :: es →
    ∃ t, step s = .next t ∧ t.et = s.cfg.etypeTable ∧
      ∀ r, (∀ i, r ≠ .et i) → (∀ k, r ≠ .wbuf k) → (∀ k, r ≠ .pbuf k) → t.regValue r = 0

/-- 10_state.md R44, 70_reset_and_hazards.md R187, with what the model chooses: after `RST` no buffer byte holds a value
(log 6), the parameters and the host stay (log 3, log 10), and the next free contents are picked (log 7). -/
def Obligations.ResetForgetsTheBuffers : Prop :=
  ∀ (s : State) (es : List HostEvent), s.port.pending = .reset :: es →
    ∃ t, step s = .next t ∧ (∀ b k, (t.mem b).get? k = none) ∧ t.cfg = s.cfg ∧ t.port.pending = es ∧
      t.port.answers = s.port.answers ∧ t.resets = s.resets + 1

/-- 70_reset_and_hazards.md R191 (marked derived by the spec): the first commands after reset, for every admissible
choice of parameters and whatever the buffers hold. The bytes `08 00` rest on
the PRESUMED wire code of IPv4 (log 19). -/
def Obligations.FirstCommandsAfterReset : Prop :=
  ∀ (c : Config) (n : Nat) (p : Port), c.wf →
    fails (exec .ethdec (State.resetOf c n p)) (State.resetOf c n p) 1 0 ∧
    fails (exec .arpdec (State.resetOf c n p)) (State.resetOf c n p) 1 0 ∧
    (∃ t, exec .ethenc (State.resetOf c n p) = .next t ∧ t.err = 0 ∧ t.wlen = 14 ∧
      t.bufBytes .wire 14 = [0, 0, 0, 0, 0, 0, 0, 0, 0, 0, 0, 0, 0x08, 0x00]) ∧
    (∃ t, exec .arpenc (State.resetOf c n p) = .next t ∧ t.err = 0 ∧ t.plen = 28 ∧
      t.bufBytes .payload 28 = List.replicate 28 0) ∧
    (∃ t, exec .arpreq (State.resetOf c n p) = .next t ∧ t.err = 0) ∧
    (∃ t, exec (.etres 0x0806) (State.resetOf c n p) = .next t ∧ t.err = 0 ∧ t.valid = true ∧ t.value = 1) ∧
    (∃ t, exec (.etwc 1) (State.resetOf c n p) = .next t ∧ t.err = 0 ∧ t.valid = true ∧ t.value = 0x0806)

/-- 10_state.md R24, R36, R37, R43; 20_memory.md R65: the state reset leaves has the invariant, for every admissible
choice of parameters. The canonical form of the buffers is the model's (log 16). -/
def Obligations.ResetHasTheInvariant : Prop :=
  ∀ (c : Config) (n : Nat) (p : Port), c.wf → (State.resetOf c n p).Inv

/-- 10_state.md R24, R25, R36, R37; 20_memory.md R65; 60_exceptions.md R161, R165: every step keeps the invariant,
whatever the host does. The canonical form of the buffers is the model's (log 16). -/
def Obligations.EveryStepKeepsTheInvariant : Prop :=
  ∀ (s t : State), s.Inv → step s = .next t → t.Inv

/-! ## Arithmetic and text -/

/-- 00_scope.md R10, 20_memory.md R60, R74 (a), (b): big-endian 16-bit fields. -/
def Obligations.BigEndianFieldsRoundTrip : Prop :=
  (∀ (b : List Byte) (i : Nat), i + 2 ≤ b.length →
    ∃ x y, b[i]? = some x ∧ b[i + 1]? = some y ∧ (be16 b i).toNat = x.toNat * 256 + y.toNat ∧
      be16bytes (be16 b i) = [x, y]) ∧
  (∀ v : BitVec 16, be16 (be16bytes v) 0 = v ∧
    (be16bytes v).map BitVec.toNat = [v.toNat / 256, v.toNat % 256])

/-- 00_scope.md R15: the MAC text form in either case: 17 characters, a colon after every second digit but the last,
and no two addresses share one. Two digits a byte are PRESUMED (log 13). -/
def Obligations.MacTextIsCanonical : Prop :=
  ∀ (upper : Bool) (m m' : Mac),
    (macTextChars upper m).length = 17 ∧
    (∀ k, k < 17 → ((macTextChars upper m)[k]? = some ':' ↔ k % 3 = 2)) ∧
    (macTextChars upper m = macTextChars upper m' → m = m') ∧
    macTextChars true ⟨0xAA, 0xBB, 0xCC, 0xDD, 0xEE, 0xFF⟩ =
      ['A', 'A', ':', 'B', 'B', ':', 'C', 'C', ':', 'D', 'D', ':', 'E', 'E', ':', 'F', 'F']
end

