-- ==== Sys2Proof/Laws/Bits.lean ====
section
/-! SUPPORT. Bit vectors put together and taken apart: the facts about `++` and `extractLsb'` that the command word,
`STATUS` and the big-endian fields rest on. -/

namespace Sys2Proof.Laws

theorem extract_low {m n : Nat} (a : BitVec m) (b : BitVec n) : (a ++ b).extractLsb' 0 n = b := by
  ext i hi
  simp [BitVec.getLsbD_append, hi]

theorem extract_high {m n : Nat} (a : BitVec m) (b : BitVec n) : (a ++ b).extractLsb' n m = a := by
  ext i hi
  simp [BitVec.getLsbD_append, hi]

theorem extract_within_low {m n k : Nat} (a : BitVec m) (b : BitVec n) (start : Nat) (h : start + k ≤ n) :
    (a ++ b).extractLsb' start k = b.extractLsb' start k := by
  ext i hi
  simp [BitVec.getLsbD_append]
  omega

theorem append_of_extracts {m n : Nat} (a : BitVec (m + n)) : a.extractLsb' n m ++ a.extractLsb' 0 n = a := by
  ext i hi
  simp

theorem append_toNat {m n : Nat} (a : BitVec m) (b : BitVec n) : (a ++ b).toNat = a.toNat * 2 ^ n + b.toNat := by
  rw [BitVec.toNat_append, Nat.shiftLeft_eq, mul_comm, Nat.two_pow_add_eq_or_of_lt b.isLt]

end Sys2Proof.Laws
end

