-- ==== Sys2Proof/Laws/Codec.lean ====
section
/-! SUPPORT. The function layer: the two lookups, the fields of a byte sequence, and when the two decoders succeed and
with what. -/

namespace Sys2Proof.Machine

/-! ### The register file -/

theorem wireCodeOf_eq_some {et : List Code} {id : EtherTypeId} {code : Code} :
    wireCodeOf et id = some code ↔ ∃ h : id.toNat < et.length, et[id.toNat] = code :=
  List.getElem?_eq_some_iff

theorem wireCodeOf_eq_none {et : List Code} {id : EtherTypeId} : wireCodeOf et id = none ↔ et.length ≤ id.toNat :=
  List.getElem?_eq_none_iff

theorem resolve_eq_none {et : List Code} {code : Code} : resolve et code = none ↔ code ∉ et := by
  simp only [resolve, Option.map_eq_none_iff, List.findIdx?_eq_none_iff, beq_eq_false_iff_ne, ne_eq]
  exact ⟨fun h hm => h code hm rfl, fun h c hc he => h (he ▸ hc)⟩

/-- An id that `Resolve` answers is registered under the code. -/
theorem wireCodeOf_of_resolve {et : List Code} {code : Code} {id : EtherTypeId} (hl : et.length ≤ 65536)
    (h : resolve et code = some id) : wireCodeOf et id = some code := by
  simp only [resolve, Option.map_eq_some_iff, List.findIdx?_eq_some_iff_getElem] at h
  obtain ⟨i, ⟨hi, hc, -⟩, rfl⟩ := h
  have : (BitVec.ofNat 16 i).toNat = i := by simp [BitVec.toNat_ofNat]; omega
  exact wireCodeOf_eq_some.mpr ⟨by omega, by simpa [this] using hc⟩

/-- Over distinct entries, `Resolve` answers the id whose code it is given. -/
theorem resolve_of_wireCodeOf {et : List Code} {code : Code} {id : EtherTypeId} (hn : et.Nodup)
    (h : wireCodeOf et id = some code) : resolve et code = some id := by
  obtain ⟨hi, hc⟩ := wireCodeOf_eq_some.mp h
  simp only [resolve, Option.map_eq_some_iff, List.findIdx?_eq_some_iff_getElem]
  refine ⟨id.toNat, ⟨hi, by simpa using hc, fun j hj => ?_⟩, by simp⟩
  simp only [beq_iff_eq]
  intro hjc
  have := (List.Nodup.getElem_inj_iff hn).mp (hjc.trans hc.symm)
  omega

/-! ### Bytes and fields -/

theorem be16_toNat (b : List Byte) (i : Nat) :
    (be16 b i).toNat = (byteAt b i).toNat * 256 + (byteAt b (i + 1)).toNat :=
  Laws.append_toNat (byteAt b i) (byteAt b (i + 1))

theorem be16bytes_be16 (b : List Byte) (i : Nat) : be16bytes (be16 b i) = [byteAt b i, byteAt b (i + 1)] := by
  have h : (be16 b i).extractLsb' 8 8 = byteAt b i := Laws.extract_high (byteAt b i) (byteAt b (i + 1))
  have l : (be16 b i).extractLsb' 0 8 = byteAt b (i + 1) := Laws.extract_low (byteAt b i) (byteAt b (i + 1))
  rw [be16bytes, h, l]

theorem hi_append_lo (v : BitVec 16) : v.extractLsb' 8 8 ++ v.extractLsb' 0 8 = v :=
  Laws.append_of_extracts (m := 8) (n := 8) v

@[simp] theorem byteAt_cons_zero (v : Byte) (b : List Byte) : byteAt (v :: b) 0 = v := rfl

@[simp] theorem byteAt_cons_succ (v : Byte) (b : List Byte) (i : Nat) : byteAt (v :: b) (i + 1) = byteAt b i := rfl

theorem byteAt_of_getElem? {b : List Byte} {i : Nat} {v : Byte} (h : b[i]? = some v) : byteAt b i = v := by
  simp [byteAt, h]

/-- A sequence long enough starts with six bytes that are its first MAC. -/
theorem macBytes_macAt {b : List Byte} {i : Nat} (h : i + 6 ≤ b.length) : macBytes (macAt b i) = (b.drop i).take 6 := by
  apply List.ext_getElem?
  intro k
  by_cases hk : k < 6
  · have : i + k < b.length := by omega
    rw [List.getElem?_take_of_lt hk, List.getElem?_drop]
    interval_cases k <;>
      simp_all [macBytes, macAt, byteAt]
  · rw [List.getElem?_eq_none (by simp [macBytes]; omega), List.getElem?_eq_none (by simp; omega)]

theorem ipv4Bytes_ipv4At {b : List Byte} {i : Nat} (h : i + 4 ≤ b.length) :
    ipv4Bytes (ipv4At b i) = (b.drop i).take 4 := by
  apply List.ext_getElem?
  intro k
  by_cases hk : k < 4
  · have : i + k < b.length := by omega
    rw [List.getElem?_take_of_lt hk, List.getElem?_drop]
    interval_cases k <;>
      simp_all [ipv4Bytes, ipv4At, byteAt]
  · rw [List.getElem?_eq_none (by simp [ipv4Bytes]; omega), List.getElem?_eq_none (by simp; omega)]

theorem be16bytes_be16_slice {b : List Byte} {i : Nat} (h : i + 2 ≤ b.length) :
    be16bytes (be16 b i) = (b.drop i).take 2 := by
  rw [be16bytes_be16]
  apply List.ext_getElem?
  intro k
  by_cases hk : k < 2
  · have : i + k < b.length := by omega
    rw [List.getElem?_take_of_lt hk, List.getElem?_drop]
    interval_cases k <;> simp_all [byteAt]
  · rw [List.getElem?_eq_none (by simp; omega), List.getElem?_eq_none (by simp; omega)]

@[simp] theorem length_macBytes (m : Mac) : (macBytes m).length = 6 := rfl
@[simp] theorem length_ipv4Bytes (a : Ipv4) : (ipv4Bytes a).length = 4 := rfl
@[simp] theorem length_be16bytes (v : BitVec 16) : (be16bytes v).length = 2 := rfl
@[simp] theorem length_arpEncode (p : ArpPacket) : (arpEncode p).length = 28 := rfl

@[simp] theorem macByte_macAt (b : List Byte) (i : Nat) (j : Fin 6) : macByte (macAt b i) j = byteAt b (i + j) := by
  fin_cases j <;> rfl

@[simp] theorem ipv4Byte_ipv4At (b : List Byte) (i : Nat) (j : Fin 4) : ipv4Byte (ipv4At b i) j = byteAt b (i + j) := by
  fin_cases j <;> rfl

theorem mac_ext_bytes {m m' : Mac} (h : ∀ j : Fin 6, macByte m j = macByte m' j) : m = m' := by
  cases m
  cases m'
  have h0 := h 0
  have h1 := h 1
  have h2 := h 2
  have h3 := h 3
  have h4 := h 4
  have h5 := h 5
  simp_all [macByte, byteAt, macBytes]

/-! ### The encoders, byte by byte -/

/-- The bytes of a frame. -/
def frameBytes (f : EthFrame) (code : Code) : List Byte :=
  macBytes f.dst ++ (macBytes f.src ++ (be16bytes code ++ f.payload))

theorem ethEncode_eq_some {et : List Code} {f : EthFrame} {b : List Byte} :
    ethEncode et f = some b ↔ ∃ code, wireCodeOf et f.type = some code ∧ b = frameBytes f code := by
  simp [ethEncode, frameBytes, eq_comm]

theorem length_frameBytes (f : EthFrame) (code : Code) : (frameBytes f code).length = 14 + f.payload.length := by
  simp [frameBytes]
  omega

theorem byteAt_frameBytes_dst (f : EthFrame) (code : Code) (j : Fin 6) :
    byteAt (frameBytes f code) j = macByte f.dst j := by
  fin_cases j <;> rfl

theorem byteAt_frameBytes_src (f : EthFrame) (code : Code) (j : Fin 6) :
    byteAt (frameBytes f code) (6 + j) = macByte f.src j := by
  fin_cases j <;> rfl

theorem byteAt_frameBytes_payload (f : EthFrame) (code : Code) (k : Nat) :
    byteAt (frameBytes f code) (14 + k) = byteAt f.payload k := by
  rw [Nat.add_comm]
  rfl

theorem be16_frameBytes (f : EthFrame) (code : Code) : be16 (frameBytes f code) 12 = code :=
  hi_append_lo code

theorem macAt_frameBytes_dst (f : EthFrame) (code : Code) : macAt (frameBytes f code) 0 = f.dst := rfl

theorem macAt_frameBytes_src (f : EthFrame) (code : Code) : macAt (frameBytes f code) 6 = f.src := rfl

theorem drop_frameBytes (f : EthFrame) (code : Code) : (frameBytes f code).drop 14 = f.payload := rfl

/-- When the frame decoder succeeds, and with what. -/
theorem ethDecode_eq_ok {et : List Code} {b : List Byte} {f : EthFrame} :
    ethDecode et b = .ok f ↔ 14 ≤ b.length ∧ resolve et (be16 b 12) = some f.type ∧
      f.dst = macAt b 0 ∧ f.src = macAt b 6 ∧ f.payload = b.drop 14 := by
  simp only [ethDecode]
  split
  · next h => simp; omega
  · next h =>
    split
    · next hr => simp [hr]
    · next id hr =>
      cases f
      simp only [Except.ok.injEq, EthFrame.mk.injEq, hr, Option.some.injEq]
      constructor
      · rintro ⟨rfl, rfl, rfl, rfl⟩; exact ⟨by omega, rfl, rfl, rfl, rfl⟩
      · rintro ⟨-, rfl, rfl, rfl, rfl⟩; exact ⟨rfl, rfl, rfl, rfl⟩

/-- When the packet decoder succeeds, and with what. -/
theorem arpDecode_eq_ok {strict : Bool} {b : List Byte} {p : ArpPacket} :
    arpDecode strict b = .ok p ↔ 28 ≤ b.length ∧ byteAt b 4 = 6 ∧ byteAt b 5 = 4 ∧
      (strict = true → be16 b 0 = 1 ∧ be16 b 2 = 0x0800) ∧
      p = { htype := be16 b 0, ptype := be16 b 2, hlen := byteAt b 4, plen := byteAt b 5, oper := be16 b 6,
            sha := macAt b 8, spa := ipv4At b 14, tha := macAt b 18, tpa := ipv4At b 24 } := by
  simp only [arpDecode]
  split
  · next h => simp; omega
  split
  · next h => simp; rintro - h4 h5; exact absurd h (by simp [h4, h5])
  split
  · next h =>
    simp only [reduceCtorEq, false_iff]
    rintro ⟨-, -, -, hs, -⟩
    have := hs h.1
    exact absurd h.2 (by simp [this.1, this.2])
  · next hl h45 hs =>
    have h4 : byteAt b 4 = 6 := by by_contra h; exact h45 (.inl h)
    have h5 : byteAt b 5 = 4 := by by_contra h; exact h45 (.inr h)
    have hs' : strict = true → be16 b 0 = 1 ∧ be16 b 2 = 0x0800 := fun ht =>
      ⟨by by_contra h; exact hs ⟨ht, .inl h⟩, by by_contra h; exact hs ⟨ht, .inr h⟩⟩
    constructor
    · intro h
      cases h
      exact ⟨by omega, h4, h5, hs', rfl⟩
    · rintro ⟨-, -, -, -, rfl⟩
      rfl

/-- Reading the packet fields back from an encoding, whatever follows it. -/
theorem fields_arpEncode (p : ArpPacket) (tail : List Byte) :
    (⟨be16 (arpEncode p ++ tail) 0, be16 (arpEncode p ++ tail) 2, byteAt (arpEncode p ++ tail) 4,
      byteAt (arpEncode p ++ tail) 5, be16 (arpEncode p ++ tail) 6, macAt (arpEncode p ++ tail) 8,
      ipv4At (arpEncode p ++ tail) 14, macAt (arpEncode p ++ tail) 18, ipv4At (arpEncode p ++ tail) 24⟩ : ArpPacket)
      = p := by
  have h0 : be16 (arpEncode p ++ tail) 0 = p.htype := hi_append_lo p.htype
  have h2 : be16 (arpEncode p ++ tail) 2 = p.ptype := hi_append_lo p.ptype
  have h6 : be16 (arpEncode p ++ tail) 6 = p.oper := hi_append_lo p.oper
  rw [h0, h2, h6]
  rfl

/-! ### Slices of a sequence -/

theorem ipv4_ext_bytes {a a' : Ipv4} (h : ∀ j : Fin 4, ipv4Byte a j = ipv4Byte a' j) : a = a' := by
  cases a
  cases a'
  have h0 := h 0
  have h1 := h 1
  have h2 := h 2
  have h3 := h 3
  simp_all [ipv4Byte, byteAt, ipv4Bytes]

/-- A 16-bit field by its two bytes. -/
theorem be16_eq_iff {b : List Byte} {i : Nat} {v : BitVec 16} (h : i + 2 ≤ b.length) :
    be16 b i = v ↔ (b.drop i).take 2 = be16bytes v := by
  rw [← be16bytes_be16_slice h]
  constructor
  · rintro rfl
    rfl
  · intro h
    rw [← hi_append_lo (be16 b i), ← hi_append_lo v]
    simp only [be16bytes, List.cons.injEq, and_true] at h
    rw [h.1, h.2]

theorem take_drop_add (b : List Byte) (i n m : Nat) :
    (b.drop i).take (n + m) = (b.drop i).take n ++ (b.drop (i + n)).take m := by
  rw [List.take_add, List.drop_drop]

theorem take_drop_one {b : List Byte} {i : Nat} (h : i < b.length) : (b.drop i).take 1 = [byteAt b i] := by
  rw [List.take_one, List.head?_drop]
  simp [byteAt, List.getElem?_eq_getElem h]

/-- The packet decoder looks at the first 28 bytes and the length only. -/
theorem arpDecode_congr {strict : Bool} {b b' : List Byte} (hl : b.length = b'.length)
    (h : ∀ k, k < 28 → byteAt b k = byteAt b' k) : arpDecode strict b = arpDecode strict b' := by
  simp only [arpDecode, hl, be16, macAt, ipv4At]
  simp (disch := omega) only [h]
  simp

/-! ### The MAC text form -/

theorem hexDigits_inj (upper : Bool) {a b : Nat} (ha : a < 16) (hb : b < 16)
    (h : (hexDigits upper).getD a '0' = (hexDigits upper).getD b '0') : a = b := by
  have key : ∀ x y : Fin 16, (hexDigits upper).getD x '0' = (hexDigits upper).getD y '0' → x = y := by
    cases upper <;> decide
  exact congrArg Fin.val (key ⟨a, ha⟩ ⟨b, hb⟩ h)

theorem hexDigits_ne_colon (upper : Bool) (k : Nat) : (hexDigits upper).getD k '0' ≠ ':' := by
  rcases Nat.lt_or_ge k 16 with h | h
  · interval_cases k <;> cases upper <;> decide
  · rw [List.getD_eq_getElem?_getD, List.getElem?_eq_none (by cases upper <;> simp [hexDigits] <;> omega)]
    decide

/-- The two digits of a byte give the byte. -/
theorem byteText_inj (upper : Bool) {v w : Byte} (h : byteText upper v = byteText upper w) : v = w := by
  simp only [byteText, List.cons.injEq, and_true] at h
  have hv := v.isLt
  have hw := w.isLt
  have h1 := hexDigits_inj upper (by omega) (by omega) h.1
  have h2 := hexDigits_inj upper (by omega) (by omega) h.2
  exact BitVec.eq_of_toNat_eq (by omega)

end Sys2Proof.Machine
end

