-- ==== Sys2Proof/Laws/Decode.lean ====
section
/-! SUPPORT. The command word: its fields are the whole word, and what the decoder accepts. -/

namespace Sys2Proof.Laws
open Sys2Proof

@[simp] theorem fieldsOf_wordOf (f : CmdFields) : fieldsOf (wordOf f) = f := by
  have hop : (wordOf f).extractLsb' 0 8 = f.op :=
    (extract_within_low f.imm (f.zero ++ f.op) 0 (by omega)).trans (extract_low f.zero f.op)
  have hz : (wordOf f).extractLsb' 8 8 = f.zero :=
    (extract_within_low f.imm (f.zero ++ f.op) 8 (by omega)).trans (extract_high f.zero f.op)
  have hi : (wordOf f).extractLsb' 16 16 = f.imm := extract_high f.imm (f.zero ++ f.op)
  simp only [fieldsOf, hop, hz, hi]

/-- The three fields are the whole word: no bit is dropped. -/
@[simp] theorem wordOf_fieldsOf (w : Word) : wordOf (fieldsOf w) = w := by
  apply BitVec.eq_of_getLsbD_eq
  intro i hi
  simp only [wordOf, fieldsOf, BitVec.getLsbD_append, BitVec.getLsbD_extractLsb']
  by_cases h1 : i < 8
  · simp [h1, show i < 16 by omega]
  · by_cases h2 : i < 16
    · simp [h1, h2, show i - 8 < 8 by omega, show 8 + (i - 8) = i by omega]
    · simp [h2, show i - 16 < 16 by omega, show 16 + (i - 16) = i by omega]

@[simp] theorem fieldsOf_encode (i : Instr) : fieldsOf (encode i) = i.fields := fieldsOf_wordOf i.fields

/-- Every command is well formed: its word passes the three checks (30_encoding.md R91). -/
theorem instr_wf (i : Instr) : i.wf = true := by
  cases i <;> rfl

/-- What format I gives. -/
theorem formatI_some {op : Byte} {imm : BitVec 16} {i : Instr} (h : formatI op imm = some i) :
    ⟨op, 0, imm⟩ = i.fields := by
  unfold formatI at h
  repeat' split at h
  all_goals cases h
  all_goals simp_all [Instr.fields]

/-- What format N gives. -/
theorem formatN_some {op : Byte} {i : Instr} (h : formatN op = some i) : ⟨op, 0, 0⟩ = i.fields := by
  unfold formatN at h
  repeat' split at h
  all_goals cases h
  all_goals simp_all [Instr.fields]

/-- What the decoder accepts, by fields. -/
theorem decode_ok_iff_fields (w : Word) (i : Instr) : decode w = .ok i ↔ fieldsOf w = i.fields := by
  constructor
  · intro h
    simp only [decode] at h
    split at h
    · cases h
    next hz =>
    have hz : (fieldsOf w).zero = 0 := by simpa using hz
    split at h
    next hI =>
      cases h
      rw [← formatI_some hI, ← hz]
    next =>
    split at h
    next hN =>
      split at h
      · cases h
      next himm =>
      cases h
      have himm : (fieldsOf w).imm = 0 := by simpa using himm
      have hf : fieldsOf w = ⟨(fieldsOf w).op, (fieldsOf w).zero, (fieldsOf w).imm⟩ := rfl
      rw [hf, hz, himm, formatN_some hN]
    next => cases h
  · intro h
    simp only [decode, h]
    cases i <;> simp [Instr.fields, formatI, formatN]

/-- The three checks of WellFormed are the decoder's. -/
theorem decode_ok_iff_wf (w : Word) : (∃ i, decode w = .ok i) ↔ (fieldsOf w).wf = true := by
  obtain ⟨op, zero, imm, hf⟩ : ∃ op zero imm, fieldsOf w = ⟨op, zero, imm⟩ := ⟨_, _, _, rfl⟩
  simp only [decode, hf, CmdFields.wf, CmdFields.zeroOk, CmdFields.opOk, CmdFields.immOk, formatIOps, formatNOps,
    formatI, formatN]
  by_cases hz : zero = 0#8
  · by_cases h1 : op = 0x01#8
    · simp [hz, h1]
    by_cases h2 : op = 0x02#8
    · simp [hz, h2]
    by_cases hi : imm = 0#16
    · by_cases h3 : op = 0x10#8
      · simp [hz, hi, h3]
      by_cases h4 : op = 0x11#8
      · simp [hz, hi, h4]
      by_cases h5 : op = 0x20#8
      · simp [hz, hi, h5]
      by_cases h6 : op = 0x21#8
      · simp [hz, hi, h6]
      by_cases h7 : op = 0x22#8
      · simp [hz, hi, h7]
      simp [hz, h1, h2, h3, h4, h5, h6, h7]
    · simp only [hz]
      repeat' split
      all_goals (simp_all <;> tauto)
  · simp [hz]

/-! ### The fields of a word by masks and shifts -/

theorem and_ff (w : Word) : w &&& 0xFF = (fieldsOf w).op.setWidth 32 := by
  have h : (w &&& 0xFF).toNat = w.toNat % 256 := by
    rw [BitVec.toNat_and]
    exact Nat.and_two_pow_sub_one_eq_mod w.toNat 8
  simp only [fieldsOf, ← BitVec.toNat_inj, h]
  simp
  omega

theorem shift_and_ff (w : Word) : (w >>> 8) &&& 0xFF = (fieldsOf w).zero.setWidth 32 := by
  have h : ((w >>> 8) &&& 0xFF).toNat = (w >>> 8).toNat % 256 := by
    rw [BitVec.toNat_and]
    exact Nat.and_two_pow_sub_one_eq_mod _ 8
  simp only [fieldsOf, ← BitVec.toNat_inj, h]
  simp
  omega

theorem shift_sixteen (w : Word) : w >>> 16 = (fieldsOf w).imm.setWidth 32 := by
  simp only [fieldsOf, ← BitVec.toNat_inj]
  simp [Nat.shiftRight_eq_div_pow]
  have := w.isLt
  omega

/-- A row of format I looks at `OP` and `ZERO`. -/
theorem and_ffff_eq {w m : Word} {n : Nat} (hn : n < 256) (hm : m = BitVec.ofNat 32 n) :
    (w &&& 0x0000FFFF == m) = true ↔ (fieldsOf w).zero = 0 ∧ (fieldsOf w).op = BitVec.ofNat 8 n := by
  subst hm
  have h : (w &&& 0x0000FFFF).toNat = w.toNat % 65536 := by
    rw [BitVec.toNat_and]
    exact Nat.and_two_pow_sub_one_eq_mod w.toNat 16
  simp only [beq_iff_eq, fieldsOf, ← BitVec.toNat_inj, h]
  simp [Nat.shiftRight_eq_div_pow]
  have := w.isLt
  omega

/-- A row of format N looks at the whole word. -/
theorem and_ones_eq {w m : Word} : (w &&& 0xFFFFFFFF == m) = true ↔ w = m := by
  have : w &&& 0xFFFFFFFF = w := BitVec.and_allOnes
  rw [this, beq_iff_eq]

end Sys2Proof.Laws
end

