-- ==== Sys2Proof/Laws/Memory.lean ====
section
/-! SUPPORT. The buffers: what a write leaves at every index, and that it keeps the canonical form. -/

namespace Sys2Proof.Machine

theorem get?_append (m m' : Memory) (k : Nat) :
    Memory.get? (m ++ m') k = (Memory.get? m k).or (Memory.get? m' k) := by
  induction m with
  | nil => rfl
  | cons c m ih =>
    simp only [List.cons_append, Memory.get?]
    split <;> simp [ih]

theorem get?_filter (m : Memory) (p : Nat → Bool) (k : Nat) :
    Memory.get? (m.filter (fun c => p c.1)) k = if p k then Memory.get? m k else none := by
  induction m with
  | nil => simp [Memory.get?]
  | cons c m ih =>
    rw [List.filter_cons]
    by_cases hc : c.1 = k
    · subst hc
      by_cases hp : p c.1 <;> simp [hp, Memory.get?, ih]
    · by_cases hp : p c.1 <;> simp [hp, Memory.get?, ih, hc]

theorem get?_cellsFrom (base : Nat) (bs : List Byte) (k : Nat) :
    Memory.get? (cellsFrom base bs) k = if base ≤ k then bs[k - base]? else none := by
  induction bs generalizing base with
  | nil => simp [cellsFrom, Memory.get?]
  | cons v vs ih =>
    simp only [cellsFrom, Memory.get?, ih]
    by_cases h : base = k
    · simp [h]
    · by_cases h' : base ≤ k
      · have : k - base = (k - (base + 1)) + 1 := by omega
        rw [if_neg h, if_pos (by omega), if_pos h', this, List.getElem?_cons_succ]
      · rw [if_neg h, if_neg (by omega), if_neg h']

/-- What a buffer holds after a write: the bytes written in their range, what it held elsewhere. -/
theorem get?_overlay (m : Memory) (base : Nat) (bs : List Byte) (k : Nat) :
    (m.overlay base bs).get? k = if base ≤ k ∧ k < base + bs.length then bs[k - base]? else m.get? k := by
  simp only [Memory.overlay, get?_append, get?_cellsFrom]
  rw [get?_filter m (fun a => decide (a < base)), get?_filter m (fun a => decide (base + bs.length ≤ a))]
  rcases Nat.lt_or_ge k base with h | h
  · rw [if_pos (by simpa using h), if_neg (by omega), if_neg (by simp; omega), if_neg (by omega)]
    simp
  · rcases Nat.lt_or_ge k (base + bs.length) with h' | h'
    · rw [if_neg (by simp; omega), if_pos h, if_neg (by simp; omega), if_pos ⟨h, h'⟩]
      simp
    · rw [if_neg (by simp; omega), if_pos h, if_pos (by simpa using h'), if_neg (by omega),
        List.getElem?_eq_none (by omega)]
      simp

theorem mem_cellsFrom {base : Nat} {bs : List Byte} {c : Host.Cell} (h : c ∈ cellsFrom base bs) :
    base ≤ c.1 ∧ c.1 < base + bs.length := by
  induction bs generalizing base with
  | nil => simp [cellsFrom] at h
  | cons v vs ih =>
    rcases List.mem_cons.mp h with rfl | h
    · simp
    · have := ih h
      simp only [List.length_cons]
      omega

theorem cellsFrom_wf (base : Nat) (bs : List Byte) : Memory.wf (cellsFrom base bs) := by
  induction bs generalizing base with
  | nil => exact List.Pairwise.nil
  | cons v vs ih =>
    refine List.Pairwise.cons (fun c hc => ?_) (ih (base + 1))
    have := mem_cellsFrom hc
    simp only
    omega

/-- Every write keeps the canonical form. -/
theorem overlay_wf {m : Memory} (h : m.wf) (base : Nat) (bs : List Byte) : (m.overlay base bs).wf := by
  refine List.pairwise_append.mpr ⟨h.filter _, List.pairwise_append.mpr ⟨cellsFrom_wf base bs, h.filter _, ?_⟩, ?_⟩
  · intro c hc d hd
    have := mem_cellsFrom hc
    simp only [List.mem_filter, decide_eq_true_eq] at hd
    omega
  · intro c hc d hd
    simp only [List.mem_filter, decide_eq_true_eq] at hc
    rcases List.mem_append.mp hd with hd | hd
    · have := mem_cellsFrom hd
      omega
    · simp only [List.mem_filter, decide_eq_true_eq] at hd
      omega

/-- A write inside the capacity lists no index outside it. -/
theorem overlay_within {m : Memory} {capacity base : Nat} {bs : List Byte} (h : m.within capacity)
    (hb : base + bs.length ≤ capacity) : (m.overlay base bs).within capacity := by
  intro c hc
  rcases List.mem_append.mp hc with hc | hc
  · exact h c (List.mem_of_mem_filter hc)
  · rcases List.mem_append.mp hc with hc | hc
    · have := mem_cellsFrom hc
      omega
    · exact h c (List.mem_of_mem_filter hc)

theorem cellsFrom_filter_above (base : Nat) (bs : List Byte) :
    (cellsFrom base bs).filter (fun c => decide (base + bs.length ≤ c.1)) = [] := by
  rw [List.filter_eq_nil_iff]
  intro c hc
  have := mem_cellsFrom hc
  simp only [decide_eq_true_eq]
  omega

theorem cellsFrom_filter_below (base : Nat) (bs : List Byte) :
    (cellsFrom base bs).filter (fun c => decide (c.1 < base)) = [] := by
  rw [List.filter_eq_nil_iff]
  intro c hc
  have := mem_cellsFrom hc
  simp only [decide_eq_true_eq]
  omega

/-- Writing the same bytes to the same place twice is writing them once. -/
theorem overlay_overlay_self (m : Memory) (base : Nat) (bs : List Byte) :
    (m.overlay base bs).overlay base bs = m.overlay base bs := by
  simp only [Memory.overlay, List.filter_append, cellsFrom_filter_above, cellsFrom_filter_below, List.filter_filter,
    List.nil_append]
  have h1 : m.filter (fun c => decide (c.1 < base) && decide (base + bs.length ≤ c.1)) = [] := by
    rw [List.filter_eq_nil_iff]; intro c _; simp; omega
  have h2 : m.filter (fun c => decide (base + bs.length ≤ c.1) && decide (c.1 < base)) = [] := by
    rw [List.filter_eq_nil_iff]; intro c _; simp; omega
  simp [h1, h2]

end Sys2Proof.Machine
end

