-- ==== Sys2Proof/Laws/State.lean ====
section
/-! SUPPORT. What each shared update does to each field of the state, true by definition, so that no later proof
unfolds a record update. -/

namespace Sys2Proof.Machine

/-! ## `finish` -/

section finish
variable (s : State) (e : ErrCode) (info : BitVec 16)
@[simp] theorem finish_cfg : (s.finish e info).cfg = s.cfg := rfl
@[simp] theorem finish_et : (s.finish e info).et = s.et := rfl
@[simp] theorem finish_fDst : (s.finish e info).fDst = s.fDst := rfl
@[simp] theorem finish_fSrc : (s.finish e info).fSrc = s.fSrc := rfl
@[simp] theorem finish_fType : (s.finish e info).fType = s.fType := rfl
@[simp] theorem finish_wbuf : (s.finish e info).wbuf = s.wbuf := rfl
@[simp] theorem finish_wlen : (s.finish e info).wlen = s.wlen := rfl
@[simp] theorem finish_pbuf : (s.finish e info).pbuf = s.pbuf := rfl
@[simp] theorem finish_plen : (s.finish e info).plen = s.plen := rfl
@[simp] theorem finish_aHtype : (s.finish e info).aHtype = s.aHtype := rfl
@[simp] theorem finish_aPtype : (s.finish e info).aPtype = s.aPtype := rfl
@[simp] theorem finish_aHln : (s.finish e info).aHln = s.aHln := rfl
@[simp] theorem finish_aPln : (s.finish e info).aPln = s.aPln := rfl
@[simp] theorem finish_aOper : (s.finish e info).aOper = s.aOper := rfl
@[simp] theorem finish_aSha : (s.finish e info).aSha = s.aSha := rfl
@[simp] theorem finish_aSpa : (s.finish e info).aSpa = s.aSpa := rfl
@[simp] theorem finish_aTha : (s.finish e info).aTha = s.aTha := rfl
@[simp] theorem finish_aTpa : (s.finish e info).aTpa = s.aTpa := rfl
@[simp] theorem finish_status : (s.finish e info).status = statusWord e info := rfl
@[simp] theorem finish_result : (s.finish e info).result = s.result := rfl
@[simp] theorem finish_resets : (s.finish e info).resets = s.resets := rfl
@[simp] theorem finish_port : (s.finish e info).port = s.port := rfl
@[simp] theorem finish_bufByte (b : Buffer) (k : Nat) : (s.finish e info).bufByte b k = s.bufByte b k := by
  cases b <;> rfl
@[simp] theorem finish_bufBytes (b : Buffer) (n : Nat) : (s.finish e info).bufBytes b n = s.bufBytes b n := by
  cases b <;> rfl
@[simp] theorem finish_frame? : (s.finish e info).frame? = s.frame? := rfl
@[simp] theorem finish_packet : (s.finish e info).packet = s.packet := rfl
@[simp] theorem finish_value : (s.finish e info).value = s.value := rfl
@[simp] theorem finish_valid : (s.finish e info).valid = s.valid := rfl
end finish

/-! ## `writeBuf` -/

section writeBuf
variable (s : State) (b : Buffer) (base : Nat) (bs : List Byte)
@[simp] theorem writeBuf_cfg : (s.writeBuf b base bs).cfg = s.cfg := by cases b <;> rfl
@[simp] theorem writeBuf_et : (s.writeBuf b base bs).et = s.et := by cases b <;> rfl
@[simp] theorem writeBuf_fDst : (s.writeBuf b base bs).fDst = s.fDst := by cases b <;> rfl
@[simp] theorem writeBuf_fSrc : (s.writeBuf b base bs).fSrc = s.fSrc := by cases b <;> rfl
@[simp] theorem writeBuf_fType : (s.writeBuf b base bs).fType = s.fType := by cases b <;> rfl
@[simp] theorem writeBuf_wlen : (s.writeBuf b base bs).wlen = s.wlen := by cases b <;> rfl
@[simp] theorem writeBuf_plen : (s.writeBuf b base bs).plen = s.plen := by cases b <;> rfl
@[simp] theorem writeBuf_aHtype : (s.writeBuf b base bs).aHtype = s.aHtype := by cases b <;> rfl
@[simp] theorem writeBuf_aPtype : (s.writeBuf b base bs).aPtype = s.aPtype := by cases b <;> rfl
@[simp] theorem writeBuf_aHln : (s.writeBuf b base bs).aHln = s.aHln := by cases b <;> rfl
@[simp] theorem writeBuf_aPln : (s.writeBuf b base bs).aPln = s.aPln := by cases b <;> rfl
@[simp] theorem writeBuf_aOper : (s.writeBuf b base bs).aOper = s.aOper := by cases b <;> rfl
@[simp] theorem writeBuf_aSha : (s.writeBuf b base bs).aSha = s.aSha := by cases b <;> rfl
@[simp] theorem writeBuf_aSpa : (s.writeBuf b base bs).aSpa = s.aSpa := by cases b <;> rfl
@[simp] theorem writeBuf_aTha : (s.writeBuf b base bs).aTha = s.aTha := by cases b <;> rfl
@[simp] theorem writeBuf_aTpa : (s.writeBuf b base bs).aTpa = s.aTpa := by cases b <;> rfl
@[simp] theorem writeBuf_status : (s.writeBuf b base bs).status = s.status := by cases b <;> rfl
@[simp] theorem writeBuf_result : (s.writeBuf b base bs).result = s.result := by cases b <;> rfl
@[simp] theorem writeBuf_resets : (s.writeBuf b base bs).resets = s.resets := by cases b <;> rfl
@[simp] theorem writeBuf_port : (s.writeBuf b base bs).port = s.port := by cases b <;> rfl
@[simp] theorem writeBuf_wire_wbuf : (s.writeBuf .wire base bs).wbuf = s.wbuf.overlay base bs := rfl
@[simp] theorem writeBuf_wire_pbuf : (s.writeBuf .wire base bs).pbuf = s.pbuf := rfl
@[simp] theorem writeBuf_payload_pbuf : (s.writeBuf .payload base bs).pbuf = s.pbuf.overlay base bs := rfl
@[simp] theorem writeBuf_payload_wbuf : (s.writeBuf .payload base bs).wbuf = s.wbuf := rfl
end writeBuf

/-! ## `setPacket` -/

section setPacket
variable (s : State) (p : ArpPacket)
@[simp] theorem setPacket_cfg : (s.setPacket p).cfg = s.cfg := rfl
@[simp] theorem setPacket_et : (s.setPacket p).et = s.et := rfl
@[simp] theorem setPacket_fDst : (s.setPacket p).fDst = s.fDst := rfl
@[simp] theorem setPacket_fSrc : (s.setPacket p).fSrc = s.fSrc := rfl
@[simp] theorem setPacket_fType : (s.setPacket p).fType = s.fType := rfl
@[simp] theorem setPacket_wbuf : (s.setPacket p).wbuf = s.wbuf := rfl
@[simp] theorem setPacket_wlen : (s.setPacket p).wlen = s.wlen := rfl
@[simp] theorem setPacket_pbuf : (s.setPacket p).pbuf = s.pbuf := rfl
@[simp] theorem setPacket_plen : (s.setPacket p).plen = s.plen := rfl
@[simp] theorem setPacket_aHtype : (s.setPacket p).aHtype = p.htype := rfl
@[simp] theorem setPacket_aPtype : (s.setPacket p).aPtype = p.ptype := rfl
@[simp] theorem setPacket_aHln : (s.setPacket p).aHln = p.hlen := rfl
@[simp] theorem setPacket_aPln : (s.setPacket p).aPln = p.plen := rfl
@[simp] theorem setPacket_aOper : (s.setPacket p).aOper = p.oper := rfl
@[simp] theorem setPacket_aSha : (s.setPacket p).aSha = p.sha := rfl
@[simp] theorem setPacket_aSpa : (s.setPacket p).aSpa = p.spa := rfl
@[simp] theorem setPacket_aTha : (s.setPacket p).aTha = p.tha := rfl
@[simp] theorem setPacket_aTpa : (s.setPacket p).aTpa = p.tpa := rfl
@[simp] theorem setPacket_status : (s.setPacket p).status = s.status := rfl
@[simp] theorem setPacket_result : (s.setPacket p).result = s.result := rfl
@[simp] theorem setPacket_resets : (s.setPacket p).resets = s.resets := rfl
@[simp] theorem setPacket_port : (s.setPacket p).port = s.port := rfl
@[simp] theorem setPacket_packet : (s.setPacket p).packet = p := rfl
@[simp] theorem setPacket_frame? : (s.setPacket p).frame? = s.frame? := rfl
@[simp] theorem setPacket_bufByte (b : Buffer) (k : Nat) : (s.setPacket p).bufByte b k = s.bufByte b k := by
  cases b <;> rfl
end setPacket

/-! ## `setPort` -/

section setPort
variable (s : State) (p : Port)
@[simp] theorem setPort_cfg : (s.setPort p).cfg = s.cfg := rfl
@[simp] theorem setPort_et : (s.setPort p).et = s.et := rfl
@[simp] theorem setPort_fDst : (s.setPort p).fDst = s.fDst := rfl
@[simp] theorem setPort_fSrc : (s.setPort p).fSrc = s.fSrc := rfl
@[simp] theorem setPort_fType : (s.setPort p).fType = s.fType := rfl
@[simp] theorem setPort_wbuf : (s.setPort p).wbuf = s.wbuf := rfl
@[simp] theorem setPort_wlen : (s.setPort p).wlen = s.wlen := rfl
@[simp] theorem setPort_pbuf : (s.setPort p).pbuf = s.pbuf := rfl
@[simp] theorem setPort_plen : (s.setPort p).plen = s.plen := rfl
@[simp] theorem setPort_aHtype : (s.setPort p).aHtype = s.aHtype := rfl
@[simp] theorem setPort_aPtype : (s.setPort p).aPtype = s.aPtype := rfl
@[simp] theorem setPort_aHln : (s.setPort p).aHln = s.aHln := rfl
@[simp] theorem setPort_aPln : (s.setPort p).aPln = s.aPln := rfl
@[simp] theorem setPort_aOper : (s.setPort p).aOper = s.aOper := rfl
@[simp] theorem setPort_aSha : (s.setPort p).aSha = s.aSha := rfl
@[simp] theorem setPort_aSpa : (s.setPort p).aSpa = s.aSpa := rfl
@[simp] theorem setPort_aTha : (s.setPort p).aTha = s.aTha := rfl
@[simp] theorem setPort_aTpa : (s.setPort p).aTpa = s.aTpa := rfl
@[simp] theorem setPort_status : (s.setPort p).status = s.status := rfl
@[simp] theorem setPort_result : (s.setPort p).result = s.result := rfl
@[simp] theorem setPort_resets : (s.setPort p).resets = s.resets := rfl
@[simp] theorem setPort_port : (s.setPort p).port = p := rfl
@[simp] theorem setPort_packet : (s.setPort p).packet = s.packet := rfl
@[simp] theorem setPort_frame? : (s.setPort p).frame? = s.frame? := rfl
@[simp] theorem setPort_regAt (a : Addr) : (s.setPort p).regAt a = s.regAt a := rfl
@[simp] theorem setPort_maps (r : Reg) : (s.setPort p).maps r = s.maps r := rfl
@[simp] theorem setPort_regValue (r : Reg) : (s.setPort p).regValue r = s.regValue r := by
  cases r <;> rfl
@[simp] theorem setPort_bufByte (b : Buffer) (k : Nat) : (s.setPort p).bufByte b k = s.bufByte b k := by
  cases b <;> rfl
@[simp] theorem setPort_bufBytes (b : Buffer) (n : Nat) : (s.setPort p).bufBytes b n = s.bufBytes b n := by
  cases b <;> rfl
@[simp] theorem setPort_setPort (q : Port) : (s.setPort p).setPort q = s.setPort q := rfl
end setPort

/-! ## `setPending` -/

section setPending
variable (s : State) (es : List HostEvent)
@[simp] theorem setPending_cfg : (s.setPending es).cfg = s.cfg := rfl
@[simp] theorem setPending_et : (s.setPending es).et = s.et := rfl
@[simp] theorem setPending_fDst : (s.setPending es).fDst = s.fDst := rfl
@[simp] theorem setPending_fSrc : (s.setPending es).fSrc = s.fSrc := rfl
@[simp] theorem setPending_fType : (s.setPending es).fType = s.fType := rfl
@[simp] theorem setPending_wbuf : (s.setPending es).wbuf = s.wbuf := rfl
@[simp] theorem setPending_wlen : (s.setPending es).wlen = s.wlen := rfl
@[simp] theorem setPending_pbuf : (s.setPending es).pbuf = s.pbuf := rfl
@[simp] theorem setPending_plen : (s.setPending es).plen = s.plen := rfl
@[simp] theorem setPending_status : (s.setPending es).status = s.status := rfl
@[simp] theorem setPending_result : (s.setPending es).result = s.result := rfl
@[simp] theorem setPending_resets : (s.setPending es).resets = s.resets := rfl
@[simp] theorem setPending_pending : (s.setPending es).port.pending = es := rfl
@[simp] theorem setPending_answers : (s.setPending es).port.answers = s.port.answers := rfl
@[simp] theorem setPending_packet : (s.setPending es).packet = s.packet := rfl
@[simp] theorem setPending_frame? : (s.setPending es).frame? = s.frame? := rfl
@[simp] theorem setPending_regAt (a : Addr) : (s.setPending es).regAt a = s.regAt a := rfl
@[simp] theorem setPending_maps (r : Reg) : (s.setPending es).maps r = s.maps r := rfl
@[simp] theorem setPending_regValue (r : Reg) : (s.setPending es).regValue r = s.regValue r := by
  cases r <;> rfl
@[simp] theorem setPending_bufByte (b : Buffer) (k : Nat) : (s.setPending es).bufByte b k = s.bufByte b k := by
  cases b <;> rfl
@[simp] theorem setPending_bufBytes (b : Buffer) (n : Nat) : (s.setPending es).bufBytes b n = s.bufBytes b n := by
  cases b <;> rfl
@[simp] theorem setPending_setPending (es' : List HostEvent) :
    (s.setPending es).setPending es' = s.setPending es' := rfl
@[simp] theorem setPending_self : s.setPending s.port.pending = s := rfl
end setPending

/-! ## `STATUS` and `RESULT` as composed -/

@[simp] theorem statusWord_err (e : ErrCode) (info : BitVec 16) :
    (statusWord e info).extractLsb' 0 4 = errBits e :=
  (Laws.extract_within_low info ((0 : BitVec 12) ++ errBits e) 0 (by omega)).trans (Laws.extract_low 0 (errBits e))

@[simp] theorem statusWord_reserved (e : ErrCode) (info : BitVec 16) :
    (statusWord e info).extractLsb' 4 12 = 0 :=
  (Laws.extract_within_low info ((0 : BitVec 12) ++ errBits e) 4 (by omega)).trans (Laws.extract_high 0 (errBits e))

@[simp] theorem statusWord_info (e : ErrCode) (info : BitVec 16) :
    (statusWord e info).extractLsb' 16 16 = info :=
  Laws.extract_high info ((0 : BitVec 12) ++ errBits e)

@[simp] theorem finish_err (s : State) (e : ErrCode) (info : BitVec 16) : (s.finish e info).err = errBits e :=
  statusWord_err e info

@[simp] theorem finish_info (s : State) (e : ErrCode) (info : BitVec 16) : (s.finish e info).info = info :=
  statusWord_info e info

end Sys2Proof.Machine
end

