-- ==== Sys2Proof/Laws/Ops.lean ====
section
/-! SUPPORT. The shared operations, said once: reading a buffer after a write, the frame and the packet the registers
hold, and the end of a command. -/

namespace Sys2Proof.Machine

@[simp] theorem length_bufBytes (s : State) (b : Buffer) (n : Nat) : (s.bufBytes b n).length = n := by
  simp [State.bufBytes]

theorem getElem?_bufBytes (s : State) (b : Buffer) {n k : Nat} (h : k < n) :
    (s.bufBytes b n)[k]? = some (s.bufByte b k) := by
  simp [State.bufBytes, h]

/-- A byte of `BUF[0:n)`. -/
theorem byteAt_bufBytes (s : State) (b : Buffer) {n k : Nat} (h : k < n) :
    byteAt (s.bufBytes b n) k = s.bufByte b k := by
  simp [byteAt, List.getD_eq_getElem?_getD, getElem?_bufBytes s b h]

/-- Two states that agree on the bytes below `n` have the same `BUF[0:n)`. -/
theorem bufBytes_congr {s t : State} {b : Buffer} {n : Nat} (h : ∀ k, k < n → s.bufByte b k = t.bufByte b k) :
    s.bufBytes b n = t.bufBytes b n := by
  simp only [State.bufBytes]
  exact List.map_congr_left fun k hk => h k (List.mem_range.mp hk)

theorem mem_writeBuf_same (s : State) (b : Buffer) (base : Nat) (bs : List Byte) :
    (s.writeBuf b base bs).mem b = (s.mem b).overlay base bs := by
  cases b <;> rfl

theorem mem_writeBuf_other (s : State) {b b' : Buffer} (h : b' ≠ b) (base : Nat) (bs : List Byte) :
    (s.writeBuf b base bs).mem b' = s.mem b' := by
  cases b <;> cases b' <;> first | rfl | exact absurd rfl h

/-- A byte in the range just written. -/
theorem bufByte_writeBuf_in (s : State) (b : Buffer) {base k : Nat} {bs : List Byte} (h : base ≤ k)
    (h' : k < base + bs.length) : (s.writeBuf b base bs).bufByte b k = byteAt bs (k - base) := by
  simp only [State.bufByte, mem_writeBuf_same, get?_overlay, writeBuf_resets]
  rw [if_pos ⟨h, h'⟩]
  simp [byteAt, List.getElem?_eq_getElem (show k - base < bs.length by omega)]

/-- A byte of the same buffer outside the range just written. -/
theorem bufByte_writeBuf_out (s : State) (b : Buffer) {base k : Nat} {bs : List Byte}
    (h : ¬ (base ≤ k ∧ k < base + bs.length)) : (s.writeBuf b base bs).bufByte b k = s.bufByte b k := by
  simp only [State.bufByte, mem_writeBuf_same, get?_overlay, writeBuf_resets]
  rw [if_neg h]

/-- A byte of the other buffer. -/
theorem bufByte_writeBuf_other (s : State) {b b' : Buffer} (h : b' ≠ b) (base k : Nat) (bs : List Byte) :
    (s.writeBuf b base bs).bufByte b' k = s.bufByte b' k := by
  simp only [State.bufByte, mem_writeBuf_other s h, writeBuf_resets]

@[simp] theorem bufByte_writeBuf_wire_payload (s : State) (base k : Nat) (bs : List Byte) :
    (s.writeBuf .wire base bs).bufByte .payload k = s.bufByte .payload k :=
  bufByte_writeBuf_other s (by decide) base k bs

@[simp] theorem bufByte_writeBuf_payload_wire (s : State) (base k : Nat) (bs : List Byte) :
    (s.writeBuf .payload base bs).bufByte .wire k = s.bufByte .wire k :=
  bufByte_writeBuf_other s (by decide) base k bs

@[simp] theorem bufBytes_writeBuf_wire_payload (s : State) (base n : Nat) (bs : List Byte) :
    (s.writeBuf .wire base bs).bufBytes .payload n = s.bufBytes .payload n :=
  bufBytes_congr fun k _ => bufByte_writeBuf_wire_payload s base k bs

@[simp] theorem bufBytes_writeBuf_payload_wire (s : State) (base n : Nat) (bs : List Byte) :
    (s.writeBuf .payload base bs).bufBytes .wire n = s.bufBytes .wire n :=
  bufBytes_congr fun k _ => bufByte_writeBuf_payload_wire s base k bs

/-- Reading back exactly what was written from index 0 on. -/
theorem bufBytes_writeBuf_zero (s : State) (b : Buffer) (bs : List Byte) :
    (s.writeBuf b 0 bs).bufBytes b bs.length = bs := by
  apply List.ext_getElem?
  intro k
  rcases Nat.lt_or_ge k bs.length with h | h
  · rw [getElem?_bufBytes _ _ h, bufByte_writeBuf_in s b (Nat.zero_le k) (by omega)]
    simp [byteAt, List.getElem?_eq_getElem h]
  · rw [List.getElem?_eq_none (by simpa using h), List.getElem?_eq_none h]

@[simp] theorem packet_writeBuf (s : State) (b : Buffer) (base : Nat) (bs : List Byte) :
    (s.writeBuf b base bs).packet = s.packet := by
  cases b <;> rfl

theorem frame?_writeBuf_wire (s : State) (base : Nat) (bs : List Byte) :
    (s.writeBuf .wire base bs).frame? = s.frame? := by
  simp [State.frame?]

theorem frame?_eq_some {s : State} {f : EthFrame} :
    s.frame? = some f ↔ s.plen.toNat ≤ s.cfg.pbufBytes ∧ s.fType.toNat < s.et.length ∧
      f = ⟨s.fDst, s.fSrc, s.fType, s.bufBytes .payload s.plen.toNat⟩ := by
  simp only [State.frame?]
  split
  · next h => simp [h.1, h.2, eq_comm]
  · next h => simp only [reduceCtorEq, false_iff]; rintro ⟨h1, h2, -⟩; exact h ⟨h1, h2⟩

theorem frame?_eq_none {s : State} :
    s.frame? = none ↔ s.cfg.pbufBytes < s.plen.toNat ∨ s.et.length ≤ s.fType.toNat := by
  simp only [State.frame?]
  split <;> simp <;> omega

/-! ### What is unchanged -/

theorem unchangedExcept_refl (w : Reg → Bool) (s : State) : unchangedExcept w s s :=
  ⟨fun _ _ => rfl, rfl, rfl, rfl, rfl⟩

theorem orStatus_eq_false {w : Reg → Bool} {r : Reg} : orStatus w r = false ↔ r ≠ .status ∧ w r = false := by
  simp [orStatus]

/-- To show that little changed: outside `STATUS` and `w` every register reads as before `finish`. -/
theorem unchangedExcept_finish_of {w : Reg → Bool} {s t : State} {e : ErrCode} {info : BitVec 16}
    (h : ∀ r, w r = false → t.regValue r = s.regValue r) (het : t.et = s.et) (hcfg : t.cfg = s.cfg)
    (hport : t.port = s.port) (hresets : t.resets = s.resets) :
    unchangedExcept (orStatus w) s (t.finish e info) := by
  refine ⟨fun r hr => ?_, het, hcfg, hport, hresets⟩
  obtain ⟨hs, hw⟩ := orStatus_eq_false.mp hr
  rw [← h r hw]
  cases r <;> first | rfl | exact absurd rfl hs

/-- The end of a command touches `STATUS` only. -/
theorem regValue_finish (s : State) (e : ErrCode) (info : BitVec 16) {r : Reg} (h : r ≠ .status) :
    (s.finish e info).regValue r = s.regValue r := by
  cases r <;> first | rfl | exact absurd rfl h

theorem unchangedExcept_finish (w : Reg → Bool) (s : State) (e : ErrCode) (info : BitVec 16) :
    unchangedExcept (orStatus w) s (s.finish e info) := by
  refine ⟨fun r hr => regValue_finish s e info ?_, rfl, rfl, rfl, rfl⟩
  rintro rfl
  simp [orStatus] at hr

/-- A command that ends at once with a result code fails, with that code and nothing else. -/
theorem fails_finish {o : Host.Outcome State Fault Refusal} {s : State} {e : ErrCode} {info : BitVec 16}
    {err : BitVec 4} (h : o = .next (s.finish e info)) (he : errBits e = err := by rfl) : fails o s err info := by
  subst he
  exact ⟨_, h, rfl, unchangedExcept_finish noReg s e info, trivial⟩

end Sys2Proof.Machine
end

