-- ==== Sys2Proof/Laws/Exec.lean ====
section
/-! SUPPORT. The commands: what each success update does to each field, and everything a command can do, said once
(`ran_of_exec`), which proofs cite instead of unfolding `exec`. -/

namespace Sys2Proof.Machine

/-! ### What the success updates do to each field -/

section setResult
variable (s : State) (v : Word)
@[simp] theorem setResult_cfg : (s.setResult v).cfg = s.cfg := rfl
@[simp] theorem setResult_et : (s.setResult v).et = s.et := rfl
@[simp] theorem setResult_fDst : (s.setResult v).fDst = s.fDst := rfl
@[simp] theorem setResult_fSrc : (s.setResult v).fSrc = s.fSrc := rfl
@[simp] theorem setResult_fType : (s.setResult v).fType = s.fType := rfl
@[simp] theorem setResult_wbuf : (s.setResult v).wbuf = s.wbuf := rfl
@[simp] theorem setResult_wlen : (s.setResult v).wlen = s.wlen := rfl
@[simp] theorem setResult_pbuf : (s.setResult v).pbuf = s.pbuf := rfl
@[simp] theorem setResult_plen : (s.setResult v).plen = s.plen := rfl
@[simp] theorem setResult_resets : (s.setResult v).resets = s.resets := rfl
@[simp] theorem setResult_port : (s.setResult v).port = s.port := rfl
@[simp] theorem setResult_packet : (s.setResult v).packet = s.packet := rfl
@[simp] theorem setResult_frame? : (s.setResult v).frame? = s.frame? := rfl
@[simp] theorem setResult_result : (s.setResult v).result = v := rfl
end setResult

section setRequest
variable (s : State)
@[simp] theorem setRequest_cfg : s.setRequest.cfg = s.cfg := rfl
@[simp] theorem setRequest_et : s.setRequest.et = s.et := rfl
@[simp] theorem setRequest_fDst : s.setRequest.fDst = s.fDst := rfl
@[simp] theorem setRequest_fSrc : s.setRequest.fSrc = s.fSrc := rfl
@[simp] theorem setRequest_fType : s.setRequest.fType = s.fType := rfl
@[simp] theorem setRequest_wbuf : s.setRequest.wbuf = s.wbuf := rfl
@[simp] theorem setRequest_wlen : s.setRequest.wlen = s.wlen := rfl
@[simp] theorem setRequest_pbuf : s.setRequest.pbuf = s.pbuf := rfl
@[simp] theorem setRequest_plen : s.setRequest.plen = s.plen := rfl
@[simp] theorem setRequest_resets : s.setRequest.resets = s.resets := rfl
@[simp] theorem setRequest_port : s.setRequest.port = s.port := rfl
@[simp] theorem setRequest_aSha : s.setRequest.aSha = s.aSha := rfl
@[simp] theorem setRequest_aSpa : s.setRequest.aSpa = s.aSpa := rfl
@[simp] theorem setRequest_aTha : s.setRequest.aTha = s.aTha := rfl
@[simp] theorem setRequest_aTpa : s.setRequest.aTpa = s.aTpa := rfl
@[simp] theorem setRequest_result : s.setRequest.result = s.result := rfl
@[simp] theorem setRequest_frame? : s.setRequest.frame? = s.frame? := rfl
@[simp] theorem setRequest_packet : s.setRequest.packet = arpNewRequest s.aSha s.aTha s.aSpa s.aTpa := rfl
end setRequest

section setFrame
variable (s : State) (f : EthFrame)
@[simp] theorem setFrame_cfg : (s.setFrame f).cfg = s.cfg := rfl
@[simp] theorem setFrame_et : (s.setFrame f).et = s.et := rfl
@[simp] theorem setFrame_fDst : (s.setFrame f).fDst = f.dst := rfl
@[simp] theorem setFrame_fSrc : (s.setFrame f).fSrc = f.src := rfl
@[simp] theorem setFrame_fType : (s.setFrame f).fType = f.type := rfl
@[simp] theorem setFrame_wbuf : (s.setFrame f).wbuf = s.wbuf := rfl
@[simp] theorem setFrame_wlen : (s.setFrame f).wlen = s.wlen := rfl
@[simp] theorem setFrame_pbuf : (s.setFrame f).pbuf = s.pbuf.overlay 0 f.payload := rfl
@[simp] theorem setFrame_plen : (s.setFrame f).plen = s.wlen - 14 := rfl
@[simp] theorem setFrame_packet : (s.setFrame f).packet = s.packet := rfl
@[simp] theorem setFrame_result : (s.setFrame f).result = s.result := rfl
@[simp] theorem setFrame_resets : (s.setFrame f).resets = s.resets := rfl
@[simp] theorem setFrame_port : (s.setFrame f).port = s.port := rfl
@[simp] theorem setFrame_bufByte_wire (k : Nat) : (s.setFrame f).bufByte .wire k = s.bufByte .wire k := rfl
theorem setFrame_bufByte_in {k : Nat} (h : k < f.payload.length) :
    (s.setFrame f).bufByte .payload k = byteAt f.payload k :=
  bufByte_writeBuf_in _ _ (Nat.zero_le k) (by omega)
theorem setFrame_bufByte_out {k : Nat} (h : f.payload.length ≤ k) :
    (s.setFrame f).bufByte .payload k = s.bufByte .payload k :=
  bufByte_writeBuf_out _ _ (by omega)
theorem setFrame_bufBytes : (s.setFrame f).bufBytes .payload f.payload.length = f.payload :=
  bufBytes_writeBuf_zero _ _ _
end setFrame

section setRaw
variable (s : State) (bs : List Byte)
@[simp] theorem setRaw_cfg : (s.setRaw bs).cfg = s.cfg := rfl
@[simp] theorem setRaw_et : (s.setRaw bs).et = s.et := rfl
@[simp] theorem setRaw_fDst : (s.setRaw bs).fDst = s.fDst := rfl
@[simp] theorem setRaw_fSrc : (s.setRaw bs).fSrc = s.fSrc := rfl
@[simp] theorem setRaw_fType : (s.setRaw bs).fType = s.fType := rfl
@[simp] theorem setRaw_wbuf : (s.setRaw bs).wbuf = s.wbuf.overlay 0 bs := rfl
@[simp] theorem setRaw_wlen : (s.setRaw bs).wlen = 14 + s.plen := rfl
@[simp] theorem setRaw_pbuf : (s.setRaw bs).pbuf = s.pbuf := rfl
@[simp] theorem setRaw_plen : (s.setRaw bs).plen = s.plen := rfl
@[simp] theorem setRaw_packet : (s.setRaw bs).packet = s.packet := rfl
@[simp] theorem setRaw_frame? : (s.setRaw bs).frame? = s.frame? := rfl
@[simp] theorem setRaw_result : (s.setRaw bs).result = s.result := rfl
@[simp] theorem setRaw_resets : (s.setRaw bs).resets = s.resets := rfl
@[simp] theorem setRaw_port : (s.setRaw bs).port = s.port := rfl
@[simp] theorem setRaw_bufByte_payload (k : Nat) : (s.setRaw bs).bufByte .payload k = s.bufByte .payload k := rfl
theorem setRaw_bufByte_in {k : Nat} (h : k < bs.length) : (s.setRaw bs).bufByte .wire k = byteAt bs k :=
  bufByte_writeBuf_in _ _ (Nat.zero_le k) (by omega)
theorem setRaw_bufByte_out {k : Nat} (h : bs.length ≤ k) : (s.setRaw bs).bufByte .wire k = s.bufByte .wire k :=
  bufByte_writeBuf_out _ _ (by omega)
theorem setRaw_bufBytes : (s.setRaw bs).bufBytes .wire bs.length = bs :=
  bufBytes_writeBuf_zero _ _ _
end setRaw

section setPayload
variable (s : State) (bs : List Byte)
@[simp] theorem setPayload_cfg : (s.setPayload bs).cfg = s.cfg := rfl
@[simp] theorem setPayload_et : (s.setPayload bs).et = s.et := rfl
@[simp] theorem setPayload_fDst : (s.setPayload bs).fDst = s.fDst := rfl
@[simp] theorem setPayload_fSrc : (s.setPayload bs).fSrc = s.fSrc := rfl
@[simp] theorem setPayload_fType : (s.setPayload bs).fType = s.fType := rfl
@[simp] theorem setPayload_wbuf : (s.setPayload bs).wbuf = s.wbuf := rfl
@[simp] theorem setPayload_wlen : (s.setPayload bs).wlen = s.wlen := rfl
@[simp] theorem setPayload_pbuf : (s.setPayload bs).pbuf = s.pbuf.overlay 0 bs := rfl
@[simp] theorem setPayload_plen : (s.setPayload bs).plen = 28 := rfl
@[simp] theorem setPayload_packet : (s.setPayload bs).packet = s.packet := rfl
@[simp] theorem setPayload_result : (s.setPayload bs).result = s.result := rfl
@[simp] theorem setPayload_resets : (s.setPayload bs).resets = s.resets := rfl
@[simp] theorem setPayload_port : (s.setPayload bs).port = s.port := rfl
@[simp] theorem setPayload_bufByte_wire (k : Nat) : (s.setPayload bs).bufByte .wire k = s.bufByte .wire k := rfl
theorem setPayload_bufByte_in {k : Nat} (h : k < bs.length) : (s.setPayload bs).bufByte .payload k = byteAt bs k :=
  bufByte_writeBuf_in _ _ (Nat.zero_le k) (by omega)
theorem setPayload_bufByte_out {k : Nat} (h : bs.length ≤ k) :
    (s.setPayload bs).bufByte .payload k = s.bufByte .payload k :=
  bufByte_writeBuf_out _ _ (by omega)
theorem setPayload_bufBytes : (s.setPayload bs).bufBytes .payload bs.length = bs :=
  bufBytes_writeBuf_zero _ _ _
end setPayload

/-! ### `RESULT` and `STATUS` as composed -/

theorem validResult_toNat (v : BitVec 16) : (validResult v).toNat = 65536 + v.toNat := by
  have hv := v.isLt
  have h1 : (validResult v).toNat = v.toNat ||| 65536 := by
    simp only [validResult, BitVec.toNat_or, BitVec.toNat_setWidth]
    rw [Nat.mod_eq_of_lt (by omega)]
    rfl
  have h2 := Nat.two_pow_add_eq_or_of_lt (i := 16) hv 1
  norm_num at h2
  rw [h1, Nat.or_comm, ← h2]

theorem validResult_valid (v : BitVec 16) : (validResult v).getLsbD 16 = true := by simp [validResult]

theorem validResult_value (v : BitVec 16) : (validResult v).extractLsb' 0 16 = v := by
  ext i hi
  simp [validResult]
  interval_cases i <;> simp

theorem validResult_reserved (v : BitVec 16) : (validResult v).extractLsb' 17 15 = 0 := by
  ext i hi
  simp [validResult]
  interval_cases i <;> simp

/-- The fields of a `STATUS` given in parts. -/
theorem fields_of_status {t : State} {e : BitVec 4} {info : BitVec 16}
    (h : t.status = info ++ ((0 : BitVec 12) ++ e)) : t.err = e ∧ t.info = info := by
  constructor
  · simp only [State.err, h]
    exact (Laws.extract_within_low info ((0 : BitVec 12) ++ e) 0 (by omega)).trans (Laws.extract_low 0 e)
  · simp only [State.info, h]
    exact Laws.extract_high info ((0 : BitVec 12) ++ e)

/-! ### What each command can do, said once -/

theorem exec_etres_some {code : Code} {id : EtherTypeId} {s : State} (h : resolve s.et code = some id) :
    exec (.etres code) s = .next ((s.setResult (validResult id)).finish .ok 0) := by
  simp only [exec, execEtres, h]

theorem exec_etres_none {code : Code} {s : State} (h : resolve s.et code = none) :
    exec (.etres code) s = .next ((s.setResult noResult).finish .ok 0) := by
  simp only [exec, execEtres, h]

theorem exec_etwc_some {code : Code} {id : EtherTypeId} {s : State} (h : wireCodeOf s.et id = some code) :
    exec (.etwc id) s = .next ((s.setResult (validResult code)).finish .ok 0) := by
  simp only [exec, execEtwc, h]

theorem exec_etwc_none {id : EtherTypeId} {s : State} (h : wireCodeOf s.et id = none) :
    exec (.etwc id) s = .next (s.finish .badOperand 0) := by
  simp only [exec, execEtwc, h]

theorem exec_ethdec_bad {s : State} (h : s.cfg.wbufBytes < s.wlen.toNat) :
    exec .ethdec s = .next (s.finish .badOperand 0) := by
  simp only [exec, execEthdec, if_pos h]

theorem exec_ethdec_error {s : State} {e : CodecError} (h : s.wlen.toNat ≤ s.cfg.wbufBytes)
    (hd : ethDecode s.et (s.bufBytes .wire s.wlen.toNat) = .error e) :
    exec .ethdec s = .next (s.finishError e) := by
  simp only [exec, execEthdec, if_neg (Nat.not_lt.mpr h), hd]

theorem exec_ethdec_ok {s : State} {f : EthFrame} (h : s.wlen.toNat ≤ s.cfg.wbufBytes)
    (hd : ethDecode s.et (s.bufBytes .wire s.wlen.toNat) = .ok f) :
    exec .ethdec s = .next ((s.setFrame f).finish .ok 0) := by
  simp only [exec, execEthdec, if_neg (Nat.not_lt.mpr h), hd]

theorem exec_ethenc_bad {s : State} (h : s.frame? = none) : exec .ethenc s = .next (s.finish .badOperand 0) := by
  simp only [exec, execEthenc, h, Option.bind_none]

theorem exec_ethenc_ok {s : State} {f : EthFrame} {code : Code} (h : s.frame? = some f)
    (hc : wireCodeOf s.et f.type = some code) :
    exec .ethenc s = .next ((s.setRaw (frameBytes f code)).finish .ok 0) := by
  have he : ethEncode s.et f = some (frameBytes f code) := ethEncode_eq_some.mpr ⟨code, hc, rfl⟩
  simp only [exec, execEthenc, h, Option.bind_some, he]

theorem exec_arpdec_bad {s : State} (h : s.cfg.pbufBytes < s.plen.toNat) :
    exec .arpdec s = .next (s.finish .badOperand 0) := by
  simp only [exec, execArpdec, if_pos h]

theorem exec_arpdec_error {s : State} {e : CodecError} (h : s.plen.toNat ≤ s.cfg.pbufBytes)
    (hd : arpDecode s.cfg.arpStrictTypes (s.bufBytes .payload s.plen.toNat) = .error e) :
    exec .arpdec s = .next (s.finishError e) := by
  simp only [exec, execArpdec, if_neg (Nat.not_lt.mpr h), hd]

theorem exec_arpdec_ok {s : State} {p : ArpPacket} (h : s.plen.toNat ≤ s.cfg.pbufBytes)
    (hd : arpDecode s.cfg.arpStrictTypes (s.bufBytes .payload s.plen.toNat) = .ok p) :
    exec .arpdec s = .next ((s.setPacket p).finish .ok 0) := by
  simp only [exec, execArpdec, if_neg (Nat.not_lt.mpr h), hd]

theorem exec_arpenc (s : State) : exec .arpenc s = .next ((s.setPayload (arpEncode s.packet)).finish .ok 0) := rfl

theorem exec_arpreq (s : State) : exec .arpreq s = .next (s.setRequest.finish .ok 0) := rfl

/-- Everything a command can do: end with a nonzero code and no other effect, or with its one success update. Every
guard is kept. -/
inductive Ran : Instr → State → State → Prop
  | etresSome {code id s} (h : resolve s.et code = some id) :
      Ran (.etres code) s ((s.setResult (validResult id)).finish .ok 0)
  | etresNone {code s} (h : resolve s.et code = none) : Ran (.etres code) s ((s.setResult noResult).finish .ok 0)
  | etwcSome {id code s} (h : wireCodeOf s.et id = some code) :
      Ran (.etwc id) s ((s.setResult (validResult code)).finish .ok 0)
  | etwcBad {id s} (h : wireCodeOf s.et id = none) : Ran (.etwc id) s (s.finish .badOperand 0)
  | ethdecBad {s} (h : s.cfg.wbufBytes < s.wlen.toNat) : Ran .ethdec s (s.finish .badOperand 0)
  | ethdecShort {s} (h : s.wlen.toNat ≤ s.cfg.wbufBytes) (hl : s.wlen.toNat < 14) :
      Ran .ethdec s (s.finish .insufficientData 0)
  | ethdecType {s} (h : s.wlen.toNat ≤ s.cfg.wbufBytes) (hl : 14 ≤ s.wlen.toNat)
      (hr : resolve s.et (be16 (s.bufBytes .wire s.wlen.toNat) 12) = none) :
      Ran .ethdec s (s.finish .unsupportedEtherType (be16 (s.bufBytes .wire s.wlen.toNat) 12))
  | ethdecOk {s f} (h : s.wlen.toNat ≤ s.cfg.wbufBytes)
      (hd : ethDecode s.et (s.bufBytes .wire s.wlen.toNat) = .ok f) : Ran .ethdec s ((s.setFrame f).finish .ok 0)
  | ethencBad {s} (h : s.frame? = none) : Ran .ethenc s (s.finish .badOperand 0)
  | ethencOk {s f code} (h : s.frame? = some f) (hc : wireCodeOf s.et f.type = some code) :
      Ran .ethenc s ((s.setRaw (frameBytes f code)).finish .ok 0)
  | arpdecBad {s} (h : s.cfg.pbufBytes < s.plen.toNat) : Ran .arpdec s (s.finish .badOperand 0)
  | arpdecShort {s} (h : s.plen.toNat ≤ s.cfg.pbufBytes) (hl : s.plen.toNat < 28) :
      Ran .arpdec s (s.finish .insufficientData 0)
  | arpdecLength {s} (h : s.plen.toNat ≤ s.cfg.pbufBytes) (hl : 28 ≤ s.plen.toNat)
      (hb : s.bufByte .payload 4 ≠ 6 ∨ s.bufByte .payload 5 ≠ 4) : Ran .arpdec s (s.finish .unsupportedAddressLength 0)
  | arpdecProfile {s} (h : s.plen.toNat ≤ s.cfg.pbufBytes) (hl : 28 ≤ s.plen.toNat)
      (h4 : s.bufByte .payload 4 = 6) (h5 : s.bufByte .payload 5 = 4) (hs : s.cfg.arpStrictTypes = true)
      (hb : be16 (s.bufBytes .payload s.plen.toNat) 0 ≠ 1 ∨ be16 (s.bufBytes .payload s.plen.toNat) 2 ≠ 0x0800) :
      Ran .arpdec s (s.finish .unsupportedArpProfile 0)
  | arpdecOk {s p} (h : s.plen.toNat ≤ s.cfg.pbufBytes)
      (hd : arpDecode s.cfg.arpStrictTypes (s.bufBytes .payload s.plen.toNat) = .ok p) :
      Ran .arpdec s ((s.setPacket p).finish .ok 0)
  | arpenc {s} : Ran .arpenc s ((s.setPayload (arpEncode s.packet)).finish .ok 0)
  | arpreq {s} : Ran .arpreq s (s.setRequest.finish .ok 0)

/-- A command always ends in a next state, by one of the cases of `Ran`. -/
theorem exec_ran (i : Instr) (s : State) : ∃ t, exec i s = .next t ∧ Ran i s t := by
  cases i with
  | etres code =>
    cases h : resolve s.et code with
    | none => exact ⟨_, exec_etres_none h, .etresNone h⟩
    | some id => exact ⟨_, exec_etres_some h, .etresSome h⟩
  | etwc id =>
    cases h : wireCodeOf s.et id with
    | none => exact ⟨_, exec_etwc_none h, .etwcBad h⟩
    | some code => exact ⟨_, exec_etwc_some h, .etwcSome h⟩
  | ethdec =>
    rcases Nat.lt_or_ge s.cfg.wbufBytes s.wlen.toNat with h | h
    · exact ⟨_, exec_ethdec_bad h, .ethdecBad h⟩
    · by_cases hl : s.wlen.toNat < 14
      · exact ⟨_, exec_ethdec_error (e := .insufficientData) h (by simp [ethDecode, hl]), .ethdecShort h hl⟩
      · cases hr : resolve s.et (be16 (s.bufBytes .wire s.wlen.toNat) 12) with
        | none =>
          exact ⟨_, exec_ethdec_error (e := .unsupportedEtherType _) h (by simp only [ethDecode, length_bufBytes, if_neg hl, hr]),
            .ethdecType h (by omega) hr⟩
        | some id =>
          have hd : ∃ f, ethDecode s.et (s.bufBytes .wire s.wlen.toNat) = .ok f := by simp [ethDecode, hl, hr]
          obtain ⟨f, hd⟩ := hd
          exact ⟨_, exec_ethdec_ok h hd, .ethdecOk h hd⟩
  | ethenc =>
    cases h : s.frame? with
    | none => exact ⟨_, exec_ethenc_bad h, .ethencBad h⟩
    | some f =>
      obtain ⟨-, ht, hf⟩ := frame?_eq_some.mp h
      have hc : wireCodeOf s.et f.type = some (s.et[s.fType.toNat]) := wireCodeOf_eq_some.mpr ⟨by simpa [hf], by simp [hf]⟩
      exact ⟨_, exec_ethenc_ok h hc, .ethencOk h hc⟩
  | arpdec =>
    rcases Nat.lt_or_ge s.cfg.pbufBytes s.plen.toNat with h | h
    · exact ⟨_, exec_arpdec_bad h, .arpdecBad h⟩
    · by_cases hl : s.plen.toNat < 28
      · exact ⟨_, exec_arpdec_error (e := .insufficientData) h (by simp [arpDecode, hl]), .arpdecShort h hl⟩
      · have b4 : byteAt (s.bufBytes .payload s.plen.toNat) 4 = s.bufByte .payload 4 := byteAt_bufBytes s _ (by omega)
        have b5 : byteAt (s.bufBytes .payload s.plen.toNat) 5 = s.bufByte .payload 5 := byteAt_bufBytes s _ (by omega)
        by_cases hb : s.bufByte .payload 4 ≠ 6 ∨ s.bufByte .payload 5 ≠ 4
        · refine ⟨_, exec_arpdec_error (e := .unsupportedAddressLength) h ?_, .arpdecLength h (by omega) hb⟩
          simp only [arpDecode, b4, b5, length_bufBytes, if_neg hl, if_pos hb]
        · by_cases hs : s.cfg.arpStrictTypes = true ∧ (be16 (s.bufBytes .payload s.plen.toNat) 0 ≠ 1 ∨
              be16 (s.bufBytes .payload s.plen.toNat) 2 ≠ 0x0800)
          · refine ⟨_, exec_arpdec_error (e := .unsupportedArpProfile) h ?_,
              .arpdecProfile h (by omega) ?_ ?_ hs.1 hs.2⟩
            · simp only [arpDecode, b4, b5, length_bufBytes, if_neg hl, if_neg hb, if_pos hs]
            · by_contra hc; exact hb (.inl hc)
            · by_contra hc; exact hb (.inr hc)
          · have hd : ∃ p, arpDecode s.cfg.arpStrictTypes (s.bufBytes .payload s.plen.toNat) = .ok p := by
              simp only [arpDecode, b4, b5, length_bufBytes, if_neg hl, if_neg hb, if_neg hs]
              exact ⟨_, rfl⟩
            obtain ⟨p, hd⟩ := hd
            exact ⟨_, exec_arpdec_ok h hd, .arpdecOk h hd⟩
  | arpenc => exact ⟨_, exec_arpenc s, .arpenc⟩
  | arpreq => exact ⟨_, exec_arpreq s, .arpreq⟩

/-- The inversion: if a command gives a next state, one of the cases of `Ran` holds. -/
theorem ran_of_exec {i : Instr} {s t : State} (h : exec i s = .next t) : Ran i s t := by
  obtain ⟨t', ht, hr⟩ := exec_ran i s
  rw [h] at ht
  cases ht
  exact hr

/-- A command does not touch the host's side of the port. -/
theorem ran_port {i : Instr} {s t : State} (h : Ran i s t) : t.port = s.port := by
  cases h <;> rfl

/-- A command does not touch the register file or the parameters, and is no reset. -/
theorem ran_fixed {i : Instr} {s t : State} (h : Ran i s t) : t.et = s.et ∧ t.cfg = s.cfg ∧ t.resets = s.resets := by
  cases h <;> exact ⟨rfl, rfl, rfl⟩

/-- A 16-bit field of `BUF[0:n)` from the two bytes' values. -/
theorem be16_bufBytes (s : State) (b : Buffer) {n i : Nat} (h : i + 1 < n) {v : BitVec 16}
    (hv : v.toNat = (s.bufByte b i).toNat * 256 + (s.bufByte b (i + 1)).toNat) : be16 (s.bufBytes b n) i = v := by
  apply BitVec.eq_of_toNat_eq
  rw [be16_toNat, byteAt_bufBytes s b (by omega), byteAt_bufBytes s b h, hv]

end Sys2Proof.Machine
end

