-- ==== Sys2Proof/Laws/HostPort.lean ====
section
/-! SUPPORT. The host port: which register an address is mapped to, and one step when the host's next event is
known. -/

namespace Sys2Proof.Machine

/-- The fixed registers, each found at its own address. -/
theorem find_fixedRegs_of_mem {r : Reg} (h : r ∈ fixedRegs) :
    fixedRegs.find? (fun r' => regAddr r' == regAddr r) = some r := by
  revert r
  decide

/-- The addresses of the fixed registers lie below the three windows. -/
theorem fixedRegs_addr_lt {r : Reg} (h : r ∈ fixedRegs) : (regAddr r).toNat < 0x44 := by
  revert r
  decide

theorem find_fixedRegs_none {a : Addr} (h : 0x44 ≤ a.toNat) : fixedRegs.find? (fun r => regAddr r == a) = none := by
  rw [List.find?_eq_none]
  intro r hr
  have := fixedRegs_addr_lt hr
  simp only [beq_iff_eq]
  rintro rfl
  omega

theorem find_fixedRegs_some {a : Addr} {r : Reg} (h : fixedRegs.find? (fun r => regAddr r == a) = some r) :
    r ∈ fixedRegs ∧ regAddr r = a :=
  ⟨List.mem_of_find?_eq_some h, by simpa using List.find?_some h⟩

/-- A register is fixed unless it is in one of the three windows. -/
theorem mem_fixedRegs {r : Reg} (he : ∀ i, r ≠ .et i) (hw : ∀ k, r ≠ .wbuf k) (hp : ∀ k, r ≠ .pbuf k) :
    r ∈ fixedRegs := by
  cases r
  case et i => exact absurd rfl (he i)
  case wbuf k => exact absurd rfl (hw k)
  case pbuf k => exact absurd rfl (hp k)
  case fDst j | fSrc j | aSha j | aTha j => fin_cases j <;> decide
  case aSpa j | aTpa j => fin_cases j <;> decide
  all_goals decide

@[simp] theorem regAt_cmd (s : State) : s.regAt 0 = some .cmd := rfl

/-- A register the block has is found at its address, when the windows do not run into each other. -/
theorem regAt_regAddr {s : State} {r : Reg} (hn : s.et.length ≤ 128) (hw : s.cfg.wbufBytes ≤ 65536)
    (h : s.maps r = true) : s.regAt (regAddr r) = some r := by
  by_cases hr : r ∈ fixedRegs
  · simp only [State.regAt, find_fixedRegs_of_mem hr]
  · cases r
    case et i =>
      have hi : i < s.et.length := by simpa [State.maps] using h
      have ha : (regAddr (.et i)).toNat = 0x80 + i := by simp [regAddr, BitVec.toNat_ofNat]; omega
      simp only [State.regAt, find_fixedRegs_none (show 0x44 ≤ (regAddr (.et i)).toNat by omega), ha]
      rw [if_pos (by omega)]
      simp
    case wbuf k =>
      have hk : k < s.cfg.wbufBytes := by simpa [State.maps, Reg.wf] using h
      have ha : (regAddr (.wbuf k)).toNat = 0x10000 + k := by simp [regAddr, BitVec.toNat_ofNat]; omega
      simp only [State.regAt, find_fixedRegs_none (show 0x44 ≤ (regAddr (.wbuf k)).toNat by omega), ha]
      rw [if_neg (by omega), if_pos (by omega)]
      simp
    case pbuf k =>
      have hk : k < s.cfg.pbufBytes := by simpa [State.maps, Reg.wf] using h
      simp only [Config.pbufBytes] at hk
      have ha : (regAddr (.pbuf k)).toNat = 0x20000 + k := by simp [regAddr, BitVec.toNat_ofNat]; omega
      simp only [State.regAt, find_fixedRegs_none (show 0x44 ≤ (regAddr (.pbuf k)).toNat by omega), ha]
      rw [if_neg (by omega), if_neg (by omega), if_pos (by simp only [Config.pbufBytes]; omega)]
      simp
    all_goals exact absurd (mem_fixedRegs (by simp) (by simp) (by simp)) hr

/-- One step when the next event is known. -/
theorem step_of_pending {s : State} {e : HostEvent} {es : List HostEvent} (h : s.port.pending = e :: es) :
    step s = hostEvent e (s.setPending es) := by
  simp only [step, hostStep, h]

/-- One step that writes a command word. -/
theorem step_of_command {s : State} {w : Word} {es : List HostEvent} (h : s.port.pending = .write 0 w :: es) :
    step s = runCommand w (s.setPending es) := by
  rw [step_of_pending h]
  rfl

/-- A host write that is not a command. -/
theorem hostWrite_of_regAt {s : State} {a : Addr} {r : Reg} (v : Word) (h : s.regAt a = some r) (hc : r ≠ .cmd) :
    hostWrite a v s = .next (s.setReg r v) := by
  cases r <;> simp_all [hostWrite]

theorem hostRead_of_regAt {s : State} {a : Addr} {r : Reg} (h : s.regAt a = some r) :
    hostRead a s = .next (s.setPort { s.port with answers := s.regValue r :: s.port.answers }) := by
  simp [hostRead, h]

/-- `n` more steps after one that gives a next state. -/
theorem runsTo_succ {n : Nat} {s t : State} {post : State → Prop} (h : step s = .next t) (ht : runsTo n t post) :
    runsTo (n + 1) s post := by
  obtain ⟨u, hu, hp⟩ := ht
  refine ⟨u, ?_, hp⟩
  have h' : Sys2Proof.core.step s = .next t := h
  simp only [Host.Core.run, h']
  exact hu

theorem runsTo_zero {s : State} {post : State → Prop} (h : post s) : runsTo 0 s post := ⟨s, rfl, h⟩

/-! ### Addresses -/

theorem regAt_eq_cmd {s : State} {a : Addr} (h : s.regAt a = some .cmd) : a = 0 := by
  simp only [State.regAt] at h
  split at h
  · next r hr =>
    cases h
    exact (find_fixedRegs_some hr).2.symm
  · repeat' split at h
    all_goals cases h

theorem find_fixedRegs_none_iff {a : Addr} :
    fixedRegs.find? (fun r => regAddr r == a) = none ↔ a.toNat ∉ fixedRegs.map (fun r => (regAddr r).toNat) := by
  rw [List.find?_eq_none]
  simp only [beq_iff_eq, List.mem_map, not_exists, not_and]
  exact ⟨fun h r hr he => h r hr (BitVec.eq_of_toNat_eq he), fun h r hr he => h r hr (by rw [he])⟩

/-- No fixed register is in a window. -/
theorem not_window_of_fixed {r : Reg} (h : r ∈ fixedRegs) :
    (∀ i, r ≠ .et i) ∧ (∀ k, r ≠ .wbuf k) ∧ (∀ k, r ≠ .pbuf k) := by
  refine ⟨?_, ?_, ?_⟩ <;>
    (rintro k rfl; simp [fixedRegs, macIndices, ipv4Indices] at h)

/-- A register found at an address is one the block has, and it is found at its own address. -/
theorem maps_of_regAt {s : State} {a : Addr} {r : Reg} (h : s.regAt a = some r) :
    s.maps r = true ∧ regAddr r = a := by
  simp only [State.regAt] at h
  split at h
  · next r' hf =>
    cases h
    obtain ⟨hm, ha⟩ := find_fixedRegs_some hf
    obtain ⟨he, hw, hp⟩ := not_window_of_fixed hm
    refine ⟨?_, ha⟩
    clear hf ha hm
    cases r
    case et i => exact absurd rfl (he i)
    case wbuf k => exact absurd rfl (hw k)
    case pbuf k => exact absurd rfl (hp k)
    all_goals rfl
  split at h
  · next hr =>
    cases h
    refine ⟨by simp [State.maps]; omega, ?_⟩
    simp only [regAddr]
    rw [show 128 + (a.toNat - 128) = a.toNat by omega]
    simp
  split at h
  · next hr =>
    cases h
    refine ⟨by simp [State.maps, Reg.wf]; omega, ?_⟩
    simp only [regAddr]
    rw [show 65536 + (a.toNat - 65536) = a.toNat by omega]
    simp
  split at h
  · next hr =>
    cases h
    simp only [Config.pbufBytes] at hr
    refine ⟨by simp [State.maps, Reg.wf, Config.pbufBytes]; omega, ?_⟩
    simp only [regAddr]
    rw [show 131072 + (a.toNat - 131072) = a.toNat by omega]
    simp
  · cases h

/-- The windows do not run into each other. -/
theorem bounds_of_inv {s : State} (h : s.Inv) : s.et.length ≤ 128 ∧ s.cfg.wbufBytes ≤ 65536 :=
  ⟨by rw [h.etLoaded]; exact h.cfgOk.2.1, h.cfgOk.2.2.2.2.2.2.2⟩

/-! ### Events -/

/-- One step that reads a register. -/
theorem step_of_read {s : State} {r : Reg} {es : List HostEvent} {v : Word}
    (hp : s.port.pending = .read (regAddr r) :: es) (hr : s.regAt (regAddr r) = some r) (hv : s.regValue r = v) :
    step s = .next (s.setPort { pending := es, answers := v :: s.port.answers }) := by
  rw [step_of_pending hp]
  refine (hostRead_of_regAt (s := s.setPending es) hr).trans ?_
  rw [setPending_regValue, hv]
  rfl

/-- One step in which the host decides to go on. -/
theorem step_of_decision {s : State} {m v a : Word} {n : Nat} {es : List HostEvent} {as : List Word}
    (hp : s.port.pending = .skipUnless m v n :: es) (ha : s.port.answers = a :: as) (h : a &&& m = v) :
    step s = .next (s.setPort { pending := es, answers := a :: as }) := by
  rw [step_of_pending hp]
  simp only [hostEvent, State.lastAnswerIs, setPending_answers, ha, h]
  simp [State.setPending, ha]

/-- One step of the host's decision that does not hold: the next `n` events are left out. -/
theorem step_of_decision_skip {s : State} {m v a : Word} {n : Nat} {es : List HostEvent} {as : List Word}
    (hp : s.port.pending = .skipUnless m v n :: es) (ha : s.port.answers = a :: as) (h : a &&& m ≠ v) :
    step s = .next (s.setPort { pending := es.drop n, answers := a :: as }) := by
  rw [step_of_pending hp]
  simp only [hostEvent, State.lastAnswerIs, setPending_answers, ha]
  simp [State.setPending, State.skipEvents, ha, h]

/-- Everything a step can do, said once: idle, a read, a command word, a register write, a reset, a decision of the
host. -/
theorem step_cases {s t : State} (h : step s = .next t) :
    (s.port.pending = [] ∧ t = s) ∨
    (∃ a es r, s.port.pending = .read a :: es ∧ s.regAt a = some r ∧
      t = s.setPort { pending := es, answers := s.regValue r :: s.port.answers }) ∨
    (∃ v es, s.port.pending = .write 0 v :: es ∧ runCommand v (s.setPending es) = .next t) ∨
    (∃ a v es r, s.port.pending = .write a v :: es ∧ s.regAt a = some r ∧ r ≠ .cmd ∧ t = (s.setPending es).setReg r v) ∨
    (∃ es, s.port.pending = .reset :: es ∧ t = (s.setPending es).assertReset) ∨
    (∃ m v n es es', s.port.pending = .skipUnless m v n :: es ∧ t = s.setPending es') := by
  cases hp : s.port.pending with
  | nil =>
    simp only [step, hostStep, hp] at h
    cases h
    exact .inl ⟨rfl, rfl⟩
  | cons e es =>
    rw [step_of_pending hp] at h
    cases e with
    | read a =>
      simp only [hostEvent, hostRead] at h
      split at h
      · cases h
      · next r hr =>
        cases h
        exact .inr (.inl ⟨a, es, r, rfl, hr, by rw [setPending_regValue]; rfl⟩)
    | write a v =>
      simp only [hostEvent, hostWrite] at h
      split at h
      · cases h
      · next hr =>
        obtain rfl := regAt_eq_cmd (s := s) hr
        exact .inr (.inr (.inl ⟨v, es, rfl, h⟩))
      · next r hc hr =>
        cases h
        exact .inr (.inr (.inr (.inl ⟨a, v, es, r, rfl, hr, fun e => hc (by rw [e]), rfl⟩)))
    | reset =>
      cases h
      exact .inr (.inr (.inr (.inr (.inl ⟨es, rfl, rfl⟩))))
    | skipUnless m v n =>
      simp only [hostEvent] at h
      refine .inr (.inr (.inr (.inr (.inr ⟨m, v, n, es, ?_⟩))))
      split at h <;> cases h
      · exact ⟨es, rfl, rfl⟩
      · exact ⟨es.drop n, rfl, rfl⟩

end Sys2Proof.Machine
end

