-- ==== Sys2Proof/Laws/Frame.lean ====
section
/-! SUPPORT. Frames: what each success update leaves as it was, register by register, and what a command word and a
register write never touch. -/

namespace Sys2Proof.Machine

theorem setFrame_frame {s : State} {f : EthFrame} (h : f.payload.length = s.wlen.toNat - 14) :
    ∀ r, writesReg .ethdec s r = false → (s.setFrame f).regValue r = s.regValue r := by
  intro r hr
  cases r
  case pbuf k =>
    have hk : ¬ k < s.wlen.toNat - 14 := of_decide_eq_false hr
    simp only [State.regValue]
    rw [setFrame_bufByte_out _ _ (by omega)]
  all_goals first | (cases hr; done) | rfl

theorem setRaw_frame {s : State} {bs : List Byte} (h : bs.length = 14 + s.plen.toNat) :
    ∀ r, writesReg .ethenc s r = false → (s.setRaw bs).regValue r = s.regValue r := by
  intro r hr
  cases r
  case wbuf k =>
    have hk : ¬ k < 14 + s.plen.toNat := of_decide_eq_false hr
    simp only [State.regValue]
    rw [setRaw_bufByte_out _ _ (by omega)]
  all_goals first | (cases hr; done) | rfl

theorem setPayload_frame {s : State} {bs : List Byte} (h : bs.length = 28) :
    ∀ r, writesReg .arpenc s r = false → (s.setPayload bs).regValue r = s.regValue r := by
  intro r hr
  cases r
  case pbuf k =>
    have hk : ¬ k < 28 := of_decide_eq_false hr
    simp only [State.regValue]
    rw [setPayload_bufByte_out _ _ (by omega)]
  all_goals first | (cases hr; done) | rfl

theorem setPacket_frame {s : State} {p : ArpPacket} :
    ∀ r, writesReg .arpdec s r = false → (s.setPacket p).regValue r = s.regValue r := by
  intro r hr
  cases r <;> first | (cases hr; done) | rfl

theorem setRequest_frame {s : State} :
    ∀ r, writesReg .arpreq s r = false → s.setRequest.regValue r = s.regValue r := by
  intro r hr
  cases r <;> first | (cases hr; done) | rfl

theorem setResult_frame {s : State} {v : Word} :
    ∀ r, r ≠ .result → (s.setResult v).regValue r = s.regValue r := by
  intro r hr
  cases r <;> first | exact absurd rfl hr | rfl

/-- A register write does not touch the host's side of the port. -/
@[simp] theorem setReg_port (s : State) (r : Reg) (v : Word) : (s.setReg r v).port = s.port := by
  cases r <;> rfl

/-- A command word does not touch the host's side of the port. -/
theorem runCommand_port {w : Word} {s t : State} (h : runCommand w s = .next t) : t.port = s.port := by
  unfold runCommand at h
  split at h
  · exact ran_port (ran_of_exec h)
  · cases h; rfl

/-! ### A register write -/

@[simp] theorem setReg_cfg (s : State) (r : Reg) (v : Word) : (s.setReg r v).cfg = s.cfg := by cases r <;> rfl
@[simp] theorem setReg_et (s : State) (r : Reg) (v : Word) : (s.setReg r v).et = s.et := by cases r <;> rfl
@[simp] theorem setReg_status (s : State) (r : Reg) (v : Word) : (s.setReg r v).status = s.status := by
  cases r <;> rfl
@[simp] theorem setReg_result (s : State) (r : Reg) (v : Word) : (s.setReg r v).result = s.result := by
  cases r <;> rfl
@[simp] theorem setReg_resets (s : State) (r : Reg) (v : Word) : (s.setReg r v).resets = s.resets := by
  cases r <;> rfl
@[simp] theorem setReg_maps (s : State) (r r' : Reg) (v : Word) : (s.setReg r v).maps r' = s.maps r' := by
  cases r' <;> simp [State.maps]

theorem setPending_setReg (s : State) (r : Reg) (v : Word) (es : List HostEvent) :
    (s.setPending es).setReg r v = (s.setReg r v).setPending es := by
  cases r <;> rfl

theorem macByte_setMacByte (m : Mac) (j k : Fin 6) (v : Byte) :
    macByte (setMacByte m j v) k = if k = j then v else macByte m k := by
  fin_cases j <;> fin_cases k <;> rfl

theorem ipv4Byte_setIpv4Byte (a : Ipv4) (j k : Fin 4) (v : Byte) :
    ipv4Byte (setIpv4Byte a j v) k = if k = j then v else ipv4Byte a k := by
  fin_cases j <;> fin_cases k <;> rfl

/-! ### A command word -/

/-- A command word is a command or illegal. -/
theorem runCommand_cases {w : Word} {s t : State} (h : runCommand w s = .next t) :
    (∃ i, decode w = .ok i ∧ Ran i s t) ∨ ((∀ i, decode w ≠ .ok i) ∧ t = s.finish .illegalCommand 0) := by
  unfold runCommand at h
  split at h
  · next i hi => exact .inl ⟨i, hi, ran_of_exec h⟩
  · next e he =>
    cases h
    exact .inr ⟨by simp [he], rfl⟩

theorem runCommand_fixed {w : Word} {s t : State} (h : runCommand w s = .next t) :
    t.et = s.et ∧ t.cfg = s.cfg ∧ t.resets = s.resets := by
  obtain ⟨i, -, hr⟩ | ⟨-, rfl⟩ := runCommand_cases h
  · exact ran_fixed hr
  · exact ⟨rfl, rfl, rfl⟩

theorem runCommand_next (w : Word) (s : State) : ∃ t, runCommand w s = .next t := by
  unfold runCommand
  split
  · obtain ⟨t, h, -⟩ := exec_ran _ s
    exact ⟨t, h⟩
  · exact ⟨_, rfl⟩

/-! ### Runs of register writes -/

/-- The state a run of register writes leaves. -/
def applyWrites (ws : List (Reg × Word)) (s : State) : State := ws.foldl (fun s x => s.setReg x.1 x.2) s

@[simp] theorem applyWrites_nil (s : State) : applyWrites [] s = s := rfl
@[simp] theorem applyWrites_cons (x : Reg × Word) (ws : List (Reg × Word)) (s : State) :
    applyWrites (x :: ws) s = applyWrites ws (s.setReg x.1 x.2) := rfl

theorem applyWrites_append (ws ws' : List (Reg × Word)) (s : State) :
    applyWrites (ws ++ ws') s = applyWrites ws' (applyWrites ws s) :=
  List.foldl_append

theorem applyWrites_setPending (ws : List (Reg × Word)) (s : State) (es : List HostEvent) :
    applyWrites ws (s.setPending es) = (applyWrites ws s).setPending es := by
  induction ws generalizing s with
  | nil => rfl
  | cons x ws ih => rw [applyWrites_cons, applyWrites_cons, setPending_setReg, ih]

/-- What each of the writes leaves alone, the run leaves alone. -/
theorem applyWrites_keeps {α : Type} (f : State → α) {P : Reg → Prop}
    (hf : ∀ s r v, P r → f (s.setReg r v) = f s) {ws : List (Reg × Word)} (h : ∀ x ∈ ws, P x.1) (s : State) :
    f (applyWrites ws s) = f s := by
  induction ws generalizing s with
  | nil => rfl
  | cons x ws ih =>
    rw [applyWrites_cons, ih (fun y hy => h y (List.mem_cons_of_mem _ hy)), hf _ _ _ (h x List.mem_cons_self)]

/-- One step for each write to a register the block has. -/
theorem runsTo_writes {ws : List (Reg × Word)} {n : Nat} {post : State → Prop} {es : List HostEvent} {s : State}
    (hn : s.et.length ≤ 128) (hw : s.cfg.wbufBytes ≤ 65536)
    (hx : ∀ x ∈ ws, s.maps x.1 = true ∧ x.1 ≠ .cmd)
    (hp : s.port.pending = ws.map (fun x => .write (regAddr x.1) x.2) ++ es)
    (h : runsTo n ((applyWrites ws s).setPending es) post) : runsTo (ws.length + n) s post := by
  induction ws generalizing s with
  | nil =>
    simp only [List.map_nil, List.nil_append] at hp
    subst hp
    simpa using h
  | cons x ws ih =>
    have hx0 := hx x List.mem_cons_self
    rw [List.length_cons, Nat.add_right_comm]
    refine runsTo_succ ((step_of_pending hp).trans
      (hostWrite_of_regAt x.2 (s := s.setPending _) (regAt_regAddr (s := s) hn hw hx0.1) hx0.2)) ?_
    refine ih (by simpa) (by simpa) (fun y hy => ?_) (by rw [setReg_port]; rfl) ?_
    · rw [setReg_maps]
      exact hx y (List.mem_cons_of_mem _ hy)
    · rw [setPending_setReg, applyWrites_setPending, setPending_setPending]
      exact h

/-- The wire buffer after its bytes have been written one by one from index `base` on. -/
theorem applyWrites_wbuf (bs : List Byte) (base k : Nat) (s : State) :
    (applyWrites (List.zipWith (fun (r : Reg) (b : Byte) => (r, b.setWidth 32))
      ((List.range' base bs.length).map Reg.wbuf) bs) s).bufByte .wire k =
      if base ≤ k ∧ k < base + bs.length then byteAt bs (k - base) else s.bufByte .wire k := by
  induction bs generalizing base s with
  | nil =>
    rw [if_neg (by simp only [List.length_nil]; omega)]
    rfl
  | cons b bs ih =>
    simp only [List.length_cons, List.range'_succ, List.map_cons, List.zipWith_cons_cons, applyWrites_cons]
    rw [ih]
    have hb : ((b.setWidth 32).setWidth 8 : Byte) = b := by simp
    by_cases h : k = base
    · subst h
      rw [if_neg (by omega), if_pos (by omega)]
      simp only [State.setReg, hb]
      rw [bufByte_writeBuf_in _ _ (by omega) (by simp)]
      simp
    · have hk : (s.setReg (.wbuf base) (b.setWidth 32)).bufByte .wire k = s.bufByte .wire k := by
        simp only [State.setReg]
        rw [bufByte_writeBuf_out _ _ (by simp only [List.length_singleton]; omega)]
      rw [hk]
      by_cases h2 : base + 1 ≤ k ∧ k < base + 1 + bs.length
      · rw [if_pos h2, if_pos (by omega), show k - base = (k - (base + 1)) + 1 by omega, byteAt_cons_succ]
      · rw [if_neg h2, if_neg (by omega)]

/-! ### The invariant, piece by piece -/

/-- Ending a command keeps the invariant, when the code and `INFO` go together. -/
theorem inv_finish {s : State} (h : s.Inv) {e : ErrCode} {info : BitVec 16}
    (h0 : e ≠ .unsupportedEtherType → info = 0) (h2 : e = .unsupportedEtherType → info ∉ s.et)
    (h6 : e = .unsupportedArpProfile → s.cfg.arpStrictTypes = true) : (s.finish e info).Inv where
  cfgOk := h.cfgOk
  etLoaded := h.etLoaded
  wbufForm := h.wbufForm
  wbufIn := h.wbufIn
  pbufForm := h.pbufForm
  pbufIn := h.pbufIn
  statusReserved := statusWord_reserved e info
  errKnown := by rw [finish_err]; cases e <;> simp [errBits]
  infoZero := by rw [finish_err, finish_info]; intro he; exact h0 (by rintro rfl; exact he rfl)
  infoUnresolved := by rw [finish_err, finish_info]; intro he; exact h2 (by cases e <;> simp [errBits] at he ⊢)
  profileStrict := by rw [finish_err]; intro he; exact h6 (by cases e <;> simp [errBits] at he ⊢)
  resultReserved := h.resultReserved
  valueZero := h.valueZero

/-- The invariant looks at eight fields. -/
theorem inv_congr {s t : State} (h : s.Inv) (hc : t.cfg = s.cfg) (he : t.et = s.et) (hs : t.status = s.status)
    (hr : t.result.extractLsb' 17 15 = 0) (hv : t.valid = false → t.value = 0)
    (hw : t.wbuf.wf) (hw' : t.wbuf.within s.cfg.wbufBytes) (hp : t.pbuf.wf) (hp' : t.pbuf.within s.cfg.pbufBytes) :
    t.Inv := by
  have herr : t.err = s.err := by simp only [State.err, hs]
  have hinfo : t.info = s.info := by simp only [State.info, hs]
  exact ⟨hc ▸ h.cfgOk, by rw [he, hc]; exact h.etLoaded, hw, hc ▸ hw', hp, hc ▸ hp', hs ▸ h.statusReserved,
    herr ▸ h.errKnown, by rw [herr, hinfo]; exact h.infoZero, by rw [herr, hinfo, he]; exact h.infoUnresolved,
    by rw [herr, hc]; exact h.profileStrict, hr, hv⟩

end Sys2Proof.Machine
end

