-- ==== Sys2Proof/Laws/PerInstr.lean ====
section
/-! SUPPORT. Per command, as syntax: its word passes the three checks of WellFormed and the one row of the opcode table
that takes it is the command's own (30_encoding.md R91, R93, R94). -/

namespace Sys2Proof.Laws.TableRow
open Sys2Proof

/-- The mnemonics of the rows that take a word. -/
def rowsTaking (w : Word) : List String := (opcodeTable.filter (fun r => r.takes w)).map (·.mnemonic)

/-- The command is well formed and its word is taken by its own row alone. -/
def Statement (i : Instr) : Prop := i.wf = true ∧ rowsTaking (encode i) = [i.mnemonic]

/-- A word of format I is taken by the row of its `OP` alone. -/
theorem rowsTaking_formatI {i : Instr} {n : Nat} {imm : BitVec 16} (hn : n < 256)
    (h : i.fields = ⟨BitVec.ofNat 8 n, 0, imm⟩) (hn' : n = 1 ∨ n = 2) :
    rowsTaking (encode i) = [if n = 1 then "ETRES" else "ETWC"] := by
  have hf : fieldsOf (encode i) = ⟨BitVec.ofNat 8 n, 0, imm⟩ := (fieldsOf_encode i).trans h
  have h1 : (encode i &&& 0x0000FFFF == 0x00000001) = decide (n = 1) := by
    rw [Bool.eq_iff_iff, and_ffff_eq (m := 0x00000001) (n := 1) (by omega) rfl, hf]
    simp [BitVec.ofNat_eq_ofNat, ← BitVec.toNat_inj]
    omega
  have h2 : (encode i &&& 0x0000FFFF == 0x00000002) = decide (n = 2) := by
    rw [Bool.eq_iff_iff, and_ffff_eq (m := 0x00000002) (n := 2) (by omega) rfl, hf]
    simp [BitVec.ofNat_eq_ofNat, ← BitVec.toNat_inj]
    omega
  have hN : ∀ m : Word, (fieldsOf m).op ≠ BitVec.ofNat 8 n → (encode i &&& 0xFFFFFFFF == m) = false := by
    intro m hm
    rw [Bool.eq_false_iff, ne_eq, and_ones_eq]
    rintro rfl
    exact hm (by rw [hf])
  have h3 := hN 0x00000010 (by rcases hn' with rfl | rfl <;> decide)
  have h4 := hN 0x00000011 (by rcases hn' with rfl | rfl <;> decide)
  have h5 := hN 0x00000020 (by rcases hn' with rfl | rfl <;> decide)
  have h6 := hN 0x00000021 (by rcases hn' with rfl | rfl <;> decide)
  have h7 := hN 0x00000022 (by rcases hn' with rfl | rfl <;> decide)
  simp only [rowsTaking, opcodeTable, OpcodeRow.takes, List.filter_cons, List.filter_nil, h1, h2, h3, h4, h5, h6, h7]
  rcases hn' with rfl | rfl <;> rfl

theorem etres (code : Code) : Statement (.etres code) :=
  ⟨instr_wf _, rowsTaking_formatI (n := 1) (by omega) rfl (.inl rfl)⟩

theorem etwc (id : EtherTypeId) : Statement (.etwc id) :=
  ⟨instr_wf _, rowsTaking_formatI (n := 2) (by omega) rfl (.inr rfl)⟩

theorem ethdec : Statement .ethdec := ⟨instr_wf _, by decide⟩

theorem ethenc : Statement .ethenc := ⟨instr_wf _, by decide⟩

theorem arpdec : Statement .arpdec := ⟨instr_wf _, by decide⟩

theorem arpenc : Statement .arpenc := ⟨instr_wf _, by decide⟩

theorem arpreq : Statement .arpreq := ⟨instr_wf _, by decide⟩

end Sys2Proof.Laws.TableRow
end

