-- ==== Sys2Proof/Tests/Slice0.lean ====
section
/-! SUPPORT. The model's own tests. Expected values are those of spec/95_test_vectors.md (the vector is named) or of the
rule named; then, for every obligation with hypotheses, a witness that meets them together. -/

namespace Sys2Proof.Tests
-- One test after another: many proofs waiting at once for the kernel would hold a thread each.
set_option Elab.async false
open Sys2Proof Sys2Proof.Machine

/-! ## WellFormed refuses ill-formed terms -/

/-- `ZERO = 1` on ETHDEC (95_test_vectors.md 2.4). -/
theorem test_wf_zero : (CmdFields.mk 0x10 0x01 0).zeroOk = false ∧ (CmdFields.mk 0x10 0x01 0).wf = false := by decide +kernel

/-- `OP = 0x03` is unassigned. -/
theorem test_wf_op : (CmdFields.mk 0x03 0 0).opOk = false ∧ (CmdFields.mk 0x03 0 0).wf = false := by decide +kernel

/-- `IMM16 = 1` on the format N command ETHDEC. -/
theorem test_wf_imm : (CmdFields.mk 0x10 0 1).immOk = false ∧ (CmdFields.mk 0x10 0 1).wf = false := by decide +kernel

/-- The first index past each window (V76), and script lines that name it. -/
theorem test_wf_reg : (Reg.et 2).wf Config.standard = false ∧ (Reg.wbuf 1514).wf Config.standard = false ∧
    (Reg.pbuf 1500).wf Config.standard = false ∧ (Line.rd (.et 2)).wf Config.standard = false ∧
    (Line.wr (.pbuf 1500) 0).wf Config.standard = false := by decide +kernel

/-- A table with a repeated code, and one with the code of Scenario B, are not admissible (00_scope.md R8). -/
theorem test_wf_config : ¬ (Config.mk [0x0800, 0x0806, 0x0800] 1514 false).wf ∧
    ¬ (Config.mk [0x0800, 0x0806, 0x9999] 1514 false).wf ∧ ¬ (Config.mk [0x0800, 0x0806] 41 false).wf ∧
    Config.standard.wf := by decide +kernel

/-! ## Decoding, by words written out from 30_encoding.md R90 and R94 -/

theorem test_decode_etres : decode 0b0000100000000110_00000000_00000001 = .ok (.etres 0x0806) := by decide +kernel
theorem test_decode_etwc : decode 0b0000000000000001_00000000_00000010 = .ok (.etwc 1) := by decide +kernel
theorem test_decode_ethdec : decode 0b0000000000000000_00000000_00010000 = .ok .ethdec := by decide +kernel
theorem test_decode_ethenc : decode 0b0000000000000000_00000000_00010001 = .ok .ethenc := by decide +kernel
theorem test_decode_arpdec : decode 0b0000000000000000_00000000_00100000 = .ok .arpdec := by decide +kernel
theorem test_decode_arpenc : decode 0b0000000000000000_00000000_00100001 = .ok .arpenc := by decide +kernel
theorem test_decode_arpreq : decode 0b0000000000000000_00000000_00100010 = .ok .arpreq := by decide +kernel

/-- The illegal words of 95_test_vectors.md 2.4. -/
theorem test_decode_illegal : ([0x00000000, 0x00000003, 0x00000012, 0x00000023, 0x000000FF, 0x00000110, 0x00000122,
    0x00010010, 0x00010020, 0x08060101, 0xFFFFFFFF] : List Word).map (fun w => (decode w).isOk) =
    List.replicate 11 false := by decide +kernel

/-- The names of the three reasons. -/
theorem test_decode_reasons : decode 0x08060101 = .error .zeroFieldNotZero ∧
    decode 0x00000012 = .error .opcodeUnassigned ∧ decode 0x00010020 = .error .immediateNotZero := by decide +kernel

/-- A table word of 32 bits, numbered with bit 0 its least significant. -/
theorem test_decodeTableWord : decodeTableWord 32 0x08060001 = some (.etres 0x0806) ∧
    decodeTableWord 32 0x10 = some .ethdec ∧ decodeTableWord 8 0x22 = some .arpreq ∧
    decodeTableWord 32 0x110 = none := by decide +kernel

/-! ## Buffers -/

/-- A write keeps the form, reads back, and leaves its neighbours. -/
theorem test_memory : let m := Memory.overlay [(3, 0xAA), (7, 0xBB)] 4 [0x01, 0x02]
    m = [(3, 0xAA), (4, 0x01), (5, 0x02), (7, 0xBB)] ∧ m.wf ∧ m.get? 3 = some 0xAA ∧ m.get? 6 = none := by decide +kernel

/-- An ill-formed memory. -/
theorem test_memory_wf : ¬ Memory.wf [(3, 0xAA), (3, 0xBB)] := by decide +kernel

/-! ## One step each -/

/-- What a step leaves, or none when it stops. -/
def after {α : Type} (s : State) (f : State → α) : Option α :=
  match step s with
  | .next t => some (f t)
  | .fault _ => none
  | .refused _ => none

/-- The address a step is refused for. -/
def refusedFor (s : State) : Option Addr :=
  match step s with
  | .refused (.unmappedAccess a) => some a
  | _ => none

/-- Reset, with the host about to do one thing. -/
def doing (e : HostEvent) (s : State) : State := s.setPending [e]

/-- Reset with a loaded wire buffer. -/
def wired (bs : List Byte) (n : Word) : State := { State.reset with wbuf := cellsFrom 0 bs, wlen := n }

/-- Reset with a loaded payload buffer. -/
def loaded (bs : List Byte) (n : Word) : State := { State.reset with pbuf := cellsFrom 0 bs, plen := n }

/-- `HDR` of 95_test_vectors.md 2.2 with the two type bytes given. -/
def hdr (t u : Byte) : List Byte := [0xAA, 0xBB, 0xCC, 0xDD, 0xEE, 0xFF, 0x11, 0x22, 0x33, 0x44, 0x55, 0x66, t, u]

/-- `ARPA` of 95_test_vectors.md 2.3. -/
def arpa : List Byte :=
  [0x00, 0x01, 0x08, 0x00, 0x06, 0x04, 0x00, 0x01, 0x11, 0x22, 0x33, 0x44, 0x55, 0x66] ++
    [0x0A, 0x00, 0x00, 0x01, 0x00, 0x00, 0x00, 0x00, 0x00, 0x00, 0x0A, 0x00, 0x00, 0x02]

/-- The ARP registers of V53. -/
def v53 : State := { State.reset with
  aHtype := 0x1234, aPtype := 0xABCD, aHln := 0xEE, aPln := 0x77, aOper := 0x00FE,
  aSha := ⟨0x01, 0x02, 0x03, 0x04, 0x05, 0x06⟩, aSpa := ⟨0xC0, 0xA8, 0x01, 0x0A⟩,
  aTha := ⟨0xF1, 0xF2, 0xF3, 0xF4, 0xF5, 0xF6⟩, aTpa := ⟨0xC0, 0xA8, 0x01, 0xFE⟩ }

/-- The frame registers of V32. -/
def v32 : State := { State.reset with
  fDst := ⟨0xFF, 0xFF, 0xFF, 0xFF, 0xFF, 0xFF⟩, fSrc := ⟨0xAA, 0xBB, 0xCC, 0xDD, 0xEE, 0xFF⟩, fType := 1 }

/-- V2, V1. -/
theorem test_etres : after (State.reset.withFetchWord 32 0x08060001) (fun t => (t.status, t.result)) =
      some (0, 0x00010001) ∧
    after (State.reset.withFetchWord 32 0x08000001) (fun t => (t.status, t.result)) = some (0, 0x00010000) := by decide +kernel

/-- V3. -/
theorem test_etres_none : after ({ State.reset with result := 0x00010806 }.withFetchWord 32 0x99990001)
    (fun t => (t.status, t.result)) = some (0, 0) := by decide +kernel

/-- V6. -/
theorem test_etwc : after (State.reset.withFetchWord 32 0x00010002) (fun t => (t.status, t.result)) =
    some (0, 0x00010806) := by decide +kernel

/-- V7. -/
theorem test_etwc_bad : after ({ State.reset with result := 0x00010806 }.withFetchWord 32 0x00020002)
    (fun t => (t.status, t.result)) = some (4, 0x00010806) := by decide +kernel

/-- V23: the type is the id, and the payload is copied. -/
theorem test_ethdec : after ((wired [0x01, 0x02, 0x03, 0x04, 0x05, 0x06, 0x07, 0x08, 0x09, 0x0A, 0x0B, 0x0C, 0x08, 0x00,
      0xDE, 0xAD, 0xBE] 17).withFetchWord 32 0x10) (fun t => t) =
    some { wired [0x01, 0x02, 0x03, 0x04, 0x05, 0x06, 0x07, 0x08, 0x09, 0x0A, 0x0B, 0x0C, 0x08, 0x00, 0xDE, 0xAD, 0xBE]
        17 with
      fDst := ⟨0x01, 0x02, 0x03, 0x04, 0x05, 0x06⟩, fSrc := ⟨0x07, 0x08, 0x09, 0x0A, 0x0B, 0x0C⟩, fType := 0, plen := 3,
      pbuf := [(0, 0xDE), (1, 0xAD), (2, 0xBE)], status := 0 } := by decide +kernel

/-- V28: the type bytes are big-endian. -/
theorem test_ethdec_swapped : after ((wired (hdr 0x06 0x08) 14).withFetchWord 32 0x10)
    (fun t => (t.status, t.fDst, t.plen)) = some (0x06080002, zeroMac, 0) := by decide +kernel

/-- V32. -/
theorem test_ethenc : after (v32.withFetchWord 32 0x11) (fun t => t) = some { v32 with
    wlen := 14, status := 0,
    wbuf := cellsFrom 0 [0xFF, 0xFF, 0xFF, 0xFF, 0xFF, 0xFF, 0xAA, 0xBB, 0xCC, 0xDD, 0xEE, 0xFF, 0x08, 0x06] } := by
  decide +kernel

/-- V34, V35. -/
theorem test_ethenc_bad : after ({ State.reset with fType := 2 }.withFetchWord 32 0x11)
      (fun t => (t.status, t.wlen, t.wbuf)) = some (4, 0, []) ∧
    after ({ State.reset with plen := 1501 }.withFetchWord 32 0x11) (fun t => t.status) = some 4 := by decide +kernel

/-- V45, E1: each field from its own range, trailing bytes ignored. -/
theorem test_arpdec : after ((loaded (arpa ++ List.replicate 18 0) 46).withFetchWord 32 0x20)
    (fun t => (t.status, t.packet)) = some (0, ⟨1, 0x0800, 6, 4, 1, ⟨0x11, 0x22, 0x33, 0x44, 0x55, 0x66⟩,
      ⟨0x0A, 0x00, 0x00, 0x01⟩, zeroMac, ⟨0x0A, 0x00, 0x00, 0x02⟩⟩) := by decide +kernel

/-- V41 (the length test first), E3, V46 in both settings, V48. -/
theorem test_arpdec_fails : after ((loaded (arpa.set 4 0x04) 27).withFetchWord 32 0x20) (fun t => t.status) = some 1 ∧
    after ((loaded (arpa.set 4 0x04) 28).withFetchWord 32 0x20) (fun t => t.status) = some 3 ∧
    after ((loaded (arpa.set 1 0x06) 28).withFetchWord 32 0x20) (fun t => (t.status, t.aHtype)) = some (0, 6) ∧
    after ({ loaded (arpa.set 1 0x06) 28 with cfg := { Config.standard with arpStrictTypes := true } }.withFetchWord 32
      0x20) (fun t => (t.status, t.aHtype)) = some (6, 0) ∧
    after ({ loaded ((arpa.set 1 0x06).set 4 0x05) 28 with
      cfg := { Config.standard with arpStrictTypes := true } }.withFetchWord 32 0x20) (fun t => t.status) = some 3 := by
  decide +kernel

/-- V53. -/
theorem test_arpenc : after (v53.withFetchWord 32 0x21) (fun t => (t.status, t.plen, t.pbuf)) =
    some (0, 28, cellsFrom 0 ([0x12, 0x34, 0xAB, 0xCD, 0xEE, 0x77, 0x00, 0xFE, 0x01, 0x02, 0x03, 0x04, 0x05, 0x06] ++
      [0xC0, 0xA8, 0x01, 0x0A, 0xF1, 0xF2, 0xF3, 0xF4, 0xF5, 0xF6, 0xC0, 0xA8, 0x01, 0xFE])) := by decide +kernel

/-- V55: the target MAC is kept. -/
theorem test_arpreq : after (v53.withFetchWord 32 0x22) (fun t => (t.status, t.packet)) =
    some (0, ⟨1, 0x0800, 6, 4, 1, v53.aSha, v53.aSpa, v53.aTha, v53.aTpa⟩) := by decide +kernel

/-- E4, the source's Scenario D, on the function layer. -/
theorem test_scenario_d : arpEncode (arpNewRequest ⟨0xAA, 0xBB, 0xCC, 0xDD, 0xEE, 0xFF⟩ zeroMac ⟨10, 0, 0, 1⟩
      ⟨10, 0, 0, 2⟩) = [0x00, 0x01, 0x08, 0x00, 0x06, 0x04, 0x00, 0x01, 0xAA, 0xBB, 0xCC, 0xDD, 0xEE, 0xFF] ++
      [0x0A, 0x00, 0x00, 0x01, 0x00, 0x00, 0x00, 0x00, 0x00, 0x00, 0x0A, 0x00, 0x00, 0x02] := by decide +kernel

/-- An illegal word writes `STATUS` alone (95_test_vectors.md 2.4). -/
theorem test_illegal : after (State.reset.withFetchWord 32 0x00010010) (fun t => t) =
    some { State.reset with status := 5 } := by decide +kernel

/-- V70, V71: a narrow register keeps the low bits. -/
theorem test_write_narrow : after (doing (.write 0x00010 0x1FF) State.reset) (fun t => t.fDst) =
      some ⟨0xFF, 0, 0, 0, 0, 0⟩ ∧
    after (doing (.write 0x00004 0x12345) State.reset) (fun t => t.fType) = some 0x2345 := by decide +kernel

/-- V74, V75, V11: read-only registers. -/
theorem test_write_ignored : after (doing (.write 0x00001 0xFFFFFFFF) State.reset) (fun t => t) = some State.reset ∧
    after (doing (.write 0x00002 0xFFFFFFFF) State.reset) (fun t => t) = some State.reset ∧
    after (doing (.write 0x00081 0x1234) State.reset) (fun t => t) = some State.reset := by decide +kernel

/-- V10, V73, V78: reads. -/
theorem test_read : after (doing (.read 0x00080) State.reset) (fun t => t.port.answers) = some [0x00000800] ∧
    after (doing (.read 0x00081) State.reset) (fun t => t.port.answers) = some [0x00000806] ∧
    after (doing (.read 0x00000) State.reset) (fun t => t.port.answers) = some [0] ∧
    after (doing (.read 0x10005) { State.reset with wbuf := [(5, 0xAB)] }) (fun t => t.port.answers) = some [0xAB] := by
  decide +kernel

/-- V76: the refused addresses. -/
theorem test_unmapped : ([0x00006, 0x00016, 0x00082, 0x105EA, 0x205DC, 0x30000] : List Addr).map
      (fun a => refusedFor (doing (.read a) State.reset)) =
    [some 0x00006, some 0x00016, some 0x00082, some 0x105EA, some 0x205DC, some 0x30000] := by decide +kernel

/-- V76: their mapped neighbours. -/
theorem test_mapped : ([0x00005, 0x00015, 0x00081, 0x105E9, 0x205DB] : List Addr).map
      (fun a => State.reset.regAt a) =
    [some .plen, some (.fDst 5), some (.et 1), some (.wbuf 1513), some (.pbuf 1499)] := by decide +kernel

/-- 70_reset_and_hazards.md R185, R188: reset, and the idle block. -/
theorem test_reset : after (doing .reset { v53 with status := 5, wlen := 9, pbuf := [(0, 1)] }) (fun t => t) =
      some { State.reset with resets := 1 } ∧
    after State.reset (fun t => t) = some State.reset := by decide +kernel

/-- 00_scope.md R15: a leading zero is kept. -/
theorem test_mac_text : macTextChars true ⟨0x0A, 0x00, 0x0B, 0xFF, 0x10, 0x99⟩ =
    ['0', 'A', ':', '0', '0', ':', '0', 'B', ':', 'F', 'F', ':', '1', '0', ':', '9', '9'] := by decide +kernel

/-! ## Witnesses: concrete values that meet the hypotheses of each obligation that has any, clause by clause -/

/-- The invariant says nothing of the host. -/
theorem inv_setPending {s : State} (h : s.Inv) (es : List HostEvent) : (s.setPending es).Inv :=
  ⟨h.1, h.2, h.3, h.4, h.5, h.6, h.7, h.8, h.9, h.10, h.11, h.12, h.13⟩

/-- Reset has the invariant. -/
theorem witness_inv_reset : State.reset.Inv := by
  constructor <;> decide +kernel

/-- V53's registers have it. -/
theorem witness_inv_v53 : v53.Inv := by
  constructor <;> decide +kernel

/-- V32's registers have it. -/
theorem witness_inv_v32 : v32.Inv := by
  constructor <;> decide +kernel

/-- A frame of type ARP around `ARPA`, with 18 bytes of padding. -/
def arpFrame : State := wired (hdr 0x08 0x06 ++ arpa ++ List.replicate 18 0) 60

theorem witness_inv_arpFrame : arpFrame.Inv := by
  constructor <;> decide +kernel

/-- A frame with no payload, and one with a payload of three bytes. -/
def bareFrame : State := wired (hdr 0x08 0x06) 14
def shortFrame : State := wired (hdr 0x08 0x00 ++ [1, 2, 3]) 17

theorem witness_inv_bareFrame : bareFrame.Inv := by
  constructor <;> decide +kernel

theorem witness_inv_shortFrame : shortFrame.Inv := by
  constructor <;> decide +kernel

/-- A frame held in the registers, with a payload. -/
def heldFrame : State := { loaded [0xDE, 0xAD] 2 with fDst := ⟨1, 2, 3, 4, 5, 6⟩, fType := 1 }

theorem witness_inv_heldFrame : heldFrame.Inv := by
  constructor <;> decide +kernel

/-- A strict block. -/
def strictOf (s : State) : State := { s with cfg := { Config.standard with arpStrictTypes := true } }

/-- Whether a command or a step ends in a next state with the given property. -/
def nextWith (o : Host.Outcome State Fault Refusal) (p : State → Bool) : Bool :=
  match o with
  | .next t => p t
  | .fault _ => false
  | .refused _ => false

theorem next_and {o : Host.Outcome State Fault Refusal} {p : State → Prop} (d : State → Bool)
    (hd : ∀ t, d t = true → p t) (h : nextWith o d = true) : ∃ t, o = .next t ∧ p t := by
  cases o with
  | next t => exact ⟨t, rfl, hd t h⟩
  | fault f => exact Bool.noConfusion h
  | refused r => exact Bool.noConfusion h

theorem next_of {o : Host.Outcome State Fault Refusal} (h : nextWith o (fun _ => true) = true) : ∃ t, o = .next t := by
  obtain ⟨t, e, -⟩ := next_and (p := fun _ => True) (fun _ => true) (fun _ _ => trivial) h
  exact ⟨t, e⟩

theorem next_err {o : Host.Outcome State Fault Refusal} {e : BitVec 4} (h : nextWith o (fun t => t.err == e) = true) :
    ∃ t, o = .next t ∧ t.err = e :=
  next_and _ (fun _ h => eq_of_beq h) h

theorem next_err_ne {o : Host.Outcome State Fault Refusal} {e : BitVec 4} (h : nextWith o (fun t => t.err != e) = true) :
    ∃ t, o = .next t ∧ t.err ≠ e :=
  next_and _ (fun _ h => by simpa using h) h

theorem witness_TableDecoderAgrees : (⟨"ETRES", 0x00000001, 0x0000FFFF⟩ : OpcodeRow) ∈ opcodeTable ∧
    (⟨"ETRES", 0x00000001, 0x0000FFFF⟩ : OpcodeRow).takes 0xFFFF0001 = true ∧
    (⟨"ARPREQ", 0x00000022, 0xFFFFFFFF⟩ : OpcodeRow) ∈ opcodeTable ∧
    (⟨"ARPREQ", 0x00000022, 0xFFFFFFFF⟩ : OpcodeRow).takes 0x22 = true := by decide +kernel

/-- The host is about to write the word; `ZERO` is 1 or 0xFF. -/
theorem witness_IllegalWords_zero : (State.reset.setPending [.write 0x00000 0x110]).port.pending =
      .write 0x00000 0x110 :: [] ∧
    (((0x110 : Word) >>> 8) &&& 0xFF) ≠ 0 ∧ (((0xFF10 : Word) >>> 8) &&& 0xFF) ≠ 0 := by decide +kernel

/-- The unassigned opcodes next to the assigned ones, and the last. -/
theorem witness_IllegalWords_op : ([0x00, 0x03, 0x0F, 0x12, 0x1F, 0x23, 0xFF] : List Word).all
    (fun w => ([0x01, 0x02, 0x10, 0x11, 0x20, 0x21, 0x22] : List Word).all (fun op => w &&& 0xFF != op)) = true := by
  decide +kernel

/-- The least and the greatest immediate a format N opcode may not have. -/
theorem witness_IllegalWords_imm : (0x00010010 : Word) &&& 0xFF = 0x10 ∧ (0x00010010 : Word) >>> 16 ≠ 0 ∧
    (0xFFFF0022 : Word) &&& 0xFF = 0x22 ∧ (0xFFFF0022 : Word) >>> 16 ≠ 0 := by decide +kernel

theorem witness_StepRunsTheDecodedCommand : decode 0x08060001 = .ok (.etres 0x0806) ∧
    (State.reset.setPending [.write 0x00000 0x08060001, .reset]).port.pending =
      .write 0x00000 0x08060001 :: [.reset] := by decide +kernel

theorem witness_OneEvent_idle : State.reset.port.pending = [] := rfl

theorem witness_OneEvent_event : (State.reset.setPending [.read 0x00080, .reset]).port.pending =
      .read 0x00080 :: [.reset] ∧
    (∃ t, step (State.reset.setPending [.read 0x00080, .reset]) = .next t) ∧
    (∀ m v n, (HostEvent.read 0x00080) ≠ .skipUnless m v n) :=
  ⟨rfl, next_of (by decide +kernel), fun _ _ _ h => HostEvent.noConfusion h⟩

theorem witness_OneEvent_decision :
    (State.reset.setPort { pending := [.skipUnless 0xF 0 1, .reset], answers := [0] }).port.pending =
      .skipUnless 0xF 0 1 :: [.reset] ∧
    (State.reset.setPort { pending := [.skipUnless 0xF 0 1, .reset], answers := [0] }).port.answers = 0 :: [] :=
  ⟨rfl, rfl⟩

/-- The default register file, and one of the greatest admissible length. -/
theorem witness_ResolveAndWireCodeOf : ([0x0800, 0x0806] : List Code).Nodup ∧
    ([0x0800, 0x0806] : List Code).length ≤ 65536 ∧ ((List.range 128).map (BitVec.ofNat 16) : List Code).Nodup := by
  decide +kernel

theorem witness_Etres : State.reset.et.Nodup ∧ State.reset.et.length ≤ 65536 ∧
    State.reset.et[(1 : EtherTypeId).toNat]? = some 0x0806 ∧ State.reset.et[(0 : EtherTypeId).toNat]? = some 0x0800 ∧
    (0x9999 : Code) ∉ State.reset.et ∧ (0x0805 : Code) ∉ State.reset.et ∧ (0x0000 : Code) ∉ State.reset.et := by
  decide +kernel

/-- The last valid id and the first and the last invalid ones. -/
theorem witness_Etwc : State.reset.et[(1 : EtherTypeId).toNat]? = some 0x0806 ∧
    State.reset.et.length ≤ (2 : EtherTypeId).toNat ∧ State.reset.et.length ≤ (0xFFFF : EtherTypeId).toNat := by
  decide +kernel

theorem witness_EtwcThenEtres : State.reset.et.Nodup ∧ State.reset.et.length ≤ 65536 ∧
    (1 : EtherTypeId).toNat < State.reset.et.length := by decide +kernel

/-- The type field of a loaded header, and `WLEN` one past the capacity. -/
theorem witness_Ethdec_badOperand : (0x0806 : Code).toNat = ((wired (hdr 0x08 0x06) 1515).bufByte .wire 12).toNat * 256 +
      ((wired (hdr 0x08 0x06) 1515).bufByte .wire 13).toNat ∧
    (wired (hdr 0x08 0x06) 1515).cfg.wbufBytes < (wired (hdr 0x08 0x06) 1515).wlen.toNat := by decide +kernel

/-- `WLEN` one below the header. -/
theorem witness_Ethdec_short : (0x0806 : Code).toNat = ((wired (hdr 0x08 0x06) 13).bufByte .wire 12).toNat * 256 +
      ((wired (hdr 0x08 0x06) 13).bufByte .wire 13).toNat ∧
    (wired (hdr 0x08 0x06) 13).wlen.toNat ≤ (wired (hdr 0x08 0x06) 13).cfg.wbufBytes ∧
    (wired (hdr 0x08 0x06) 13).wlen.toNat < 14 := by decide +kernel

/-- An unregistered type, at exactly 14 bytes. -/
theorem witness_Ethdec_unresolved : (0x9999 : Code).toNat = ((wired (hdr 0x99 0x99) 14).bufByte .wire 12).toNat * 256 +
      ((wired (hdr 0x99 0x99) 14).bufByte .wire 13).toNat ∧
    14 ≤ (wired (hdr 0x99 0x99) 14).wlen.toNat ∧ (0x9999 : Code) ∉ (wired (hdr 0x99 0x99) 14).et := by decide +kernel

/-- A frame of exactly 14 bytes, and one as long as the buffer. -/
theorem witness_Ethdec_ok : bareFrame.et.Nodup ∧ bareFrame.et.length ≤ 65536 ∧
    (0x0806 : Code).toNat = (bareFrame.bufByte .wire 12).toNat * 256 + (bareFrame.bufByte .wire 13).toNat ∧
    14 ≤ bareFrame.wlen.toNat ∧ bareFrame.et[(1 : EtherTypeId).toNat]? = some 0x0806 ∧
    (wired (hdr 0x08 0x06) 1514).wlen.toNat ≤ (wired (hdr 0x08 0x06) 1514).cfg.wbufBytes := by decide +kernel

/-- `PLEN` one past the capacity; `F_TYPE` the first invalid id; and the last values that pass. -/
theorem witness_Ethenc : (loaded [] 1501).cfg.pbufBytes < (loaded [] 1501).plen.toNat ∧
    State.reset.et.length ≤ (2 : EtherTypeId).toNat ∧
    (loaded [] 1500).plen.toNat ≤ (loaded [] 1500).cfg.pbufBytes ∧ (loaded [] 1500).cfg.wbufBytes ≤ 65536 ∧
    (loaded [] 1500).et[(1 : EtherTypeId).toNat]? = some 0x0806 := by decide +kernel

theorem witness_EthDecodeChecks : ((hdr 0x08 0x06).take 13).length < 14 ∧ 14 ≤ (hdr 0x08 0x06).length ∧
    [(0x0806 : Code).extractLsb' 8 8, (0x0806 : Code).extractLsb' 0 8] = ((hdr 0x08 0x06).drop 12).take 2 ∧
    resolve [0x0800, 0x0806] 0x0806 = some 1 ∧
    [(0x9999 : Code).extractLsb' 8 8, (0x9999 : Code).extractLsb' 0 8] = ((hdr 0x99 0x99).drop 12).take 2 ∧
    resolve [0x0800, 0x0806] 0x9999 = none := by decide +kernel

theorem witness_FrameDecodes : ([0x0800, 0x0806] : List Code).Nodup ∧
    ([0x0800, 0x0806] : List Code)[(EthFrame.mk zeroMac zeroMac 1 [1, 2]).type.toNat]? = some 0x0806 := by decide +kernel

theorem witness_DecodedFrame : ∃ f, ethDecode [0x0800, 0x0806] (hdr 0x08 0x06 ++ [1, 2, 3]) = .ok f := ⟨_, rfl⟩

/-- A frame with no payload and one with two bytes. -/
theorem witness_EthencThenEthdec : v32.Inv ∧ v32.frame? = some ⟨v32.fDst, v32.fSrc, 1, []⟩ ∧ heldFrame.Inv ∧
    heldFrame.frame? = some ⟨⟨1, 2, 3, 4, 5, 6⟩, zeroMac, 1, [0xDE, 0xAD]⟩ :=
  ⟨witness_inv_v32, by decide +kernel, witness_inv_heldFrame, by decide +kernel⟩

theorem witness_EthdecThenEthenc : bareFrame.Inv ∧ (∃ t, exec .ethdec bareFrame = .next t ∧ t.err = 0) ∧
    shortFrame.Inv ∧ (∃ t, exec .ethdec shortFrame = .next t ∧ t.err = 0) :=
  ⟨witness_inv_bareFrame, next_err (by decide +kernel), witness_inv_shortFrame, next_err (by decide +kernel)⟩

/-- The three 16-bit fields of a loaded `ARPA`. -/
theorem witness_Arpdec_fields : (1 : BitVec 16).toNat = ((loaded arpa 28).bufByte .payload 0).toNat * 256 +
      ((loaded arpa 28).bufByte .payload 1).toNat ∧
    (0x0800 : BitVec 16).toNat = ((loaded arpa 28).bufByte .payload 2).toNat * 256 +
      ((loaded arpa 28).bufByte .payload 3).toNat ∧
    (1 : BitVec 16).toNat = ((loaded arpa 28).bufByte .payload 6).toNat * 256 +
      ((loaded arpa 28).bufByte .payload 7).toNat := by decide +kernel

/-- `PLEN` one past the capacity, one below 28, and 28. -/
theorem witness_Arpdec_length : (loaded arpa 1501).cfg.pbufBytes < (loaded arpa 1501).plen.toNat ∧
    (loaded arpa 27).plen.toNat ≤ (loaded arpa 27).cfg.pbufBytes ∧ (loaded arpa 27).plen.toNat < 28 ∧
    (loaded arpa 28).plen.toNat ≤ (loaded arpa 28).cfg.pbufBytes ∧ 28 ≤ (loaded arpa 28).plen.toNat := by decide +kernel

/-- Each length byte wrong on its own. -/
theorem witness_Arpdec_lengthBytes : (loaded (arpa.set 4 0x07) 28).bufByte .payload 4 ≠ 6 ∧
    (loaded (arpa.set 5 0x03) 28).bufByte .payload 5 ≠ 4 := by decide +kernel

/-- On a strict block, each type wrong on its own. -/
theorem witness_Arpdec_profile : (strictOf (loaded (arpa.set 1 0x06) 28)).cfg.arpStrictTypes = true ∧
    (strictOf (loaded (arpa.set 1 0x06) 28)).bufByte .payload 4 = 6 ∧
    (strictOf (loaded (arpa.set 1 0x06) 28)).bufByte .payload 5 = 4 ∧
    (6 : BitVec 16).toNat = ((strictOf (loaded (arpa.set 1 0x06) 28)).bufByte .payload 0).toNat * 256 +
      ((strictOf (loaded (arpa.set 1 0x06) 28)).bufByte .payload 1).toNat ∧
    (0x0801 : BitVec 16).toNat = ((strictOf (loaded (arpa.set 3 0x01) 28)).bufByte .payload 2).toNat * 256 +
      ((strictOf (loaded (arpa.set 3 0x01) 28)).bufByte .payload 3).toNat := by decide +kernel

/-- `ARPA` decodes on both kinds of block. -/
theorem witness_Arpdec_ok : (loaded arpa 28).bufByte .payload 4 = 6 ∧ (loaded arpa 28).bufByte .payload 5 = 4 ∧
    (loaded arpa 28).cfg.arpStrictTypes = false ∧ (strictOf (loaded arpa 28)).cfg.arpStrictTypes = true ∧
    (strictOf (loaded arpa 28)).bufByte .payload 4 = 6 ∧ (strictOf (loaded arpa 28)).bufByte .payload 5 = 4 := by
  decide +kernel

theorem witness_ArpDecodeChecks : (arpa.take 27).length < 28 ∧ 28 ≤ arpa.length ∧
    (((arpa.set 4 0x07).drop 4).take 2) ≠ [6, 4] ∧ ((arpa.drop 4).take 2) = [6, 4] ∧
    ((arpa.set 1 0x06).take 4) ≠ [0, 1, 8, 0] ∧ (((arpa.set 1 0x06).drop 4).take 2) = [6, 4] ∧
    arpa.take 4 = [0, 1, 8, 0] := by decide +kernel

theorem witness_PacketDecodes : profileValid (arpNewRequest zeroMac zeroMac zeroIpv4 zeroIpv4) ∧
    profileValid { arpNewRequest zeroMac zeroMac zeroIpv4 zeroIpv4 with oper := 0xFFFF } := by decide +kernel

theorem witness_DecodedPacket : ({ v53.packet with hlen := 6, plen := 4 } : ArpPacket).hlen = 6 ∧
    ({ v53.packet with hlen := 6, plen := 4 } : ArpPacket).plen = 4 ∧ v53.packet.hlen ≠ 6 ∧
    ({ v53.packet with hlen := 6, plen := 3 } : ArpPacket).plen ≠ 4 ∧
    (∃ p, arpDecode true arpa = .ok p) ∧ (∃ p, arpDecode false (arpa ++ [7]) = .ok p) :=
  ⟨by decide +kernel, by decide +kernel, by decide +kernel, by decide +kernel, ⟨_, rfl⟩, ⟨_, rfl⟩⟩

/-- The default block, a strict one, and the smallest buffers. -/
theorem witness_RequestSurvives : v53.cfg.wf ∧ (strictOf v53).cfg.wf ∧
    ({ Config.standard with wbufBytes := 42 } : Config).wf ∧ ({ Config.standard with wbufBytes := 65536 } : Config).wf := by
  decide +kernel

/-- Each command completes. -/
theorem witness_CommandsWriteTheirColumnOnly : (∃ t, exec (.etres 0x0806) State.reset = .next t) ∧
    (∃ t, exec (.etwc 1) State.reset = .next t) ∧ (∃ t, exec .ethdec shortFrame = .next t) ∧
    (∃ t, exec .ethenc heldFrame = .next t) ∧ (∃ t, exec .arpdec (loaded arpa 28) = .next t) ∧
    (∃ t, exec .arpenc v53 = .next t) ∧ (∃ t, exec .arpreq v53 = .next t) :=
  ⟨next_of (by decide +kernel), next_of (by decide +kernel), next_of (by decide +kernel), next_of (by decide +kernel), next_of (by decide +kernel), next_of (by decide +kernel), next_of (by decide +kernel)⟩

theorem witness_FailingCommands : (∃ t, runCommand 0x00020002 State.reset = .next t ∧ t.err ≠ 0) ∧
    (∃ t, runCommand 0x10 State.reset = .next t ∧ t.err ≠ 0) ∧ (∃ t, runCommand 0 State.reset = .next t ∧ t.err ≠ 0) :=
  ⟨next_err_ne (by decide +kernel), next_err_ne (by decide +kernel), next_err_ne (by decide +kernel)⟩

theorem witness_InfoIsTheUnresolvedCode :
    (∃ t, runCommand 0x10 (wired (hdr 0x99 0x99) 14) = .next t ∧ t.err = 2) ∧
    (∃ t, runCommand 0x10 bareFrame = .next t ∧ t.err ≠ 2) :=
  ⟨next_err (by decide +kernel), next_err_ne (by decide +kernel)⟩

/-- Two states that differ outside what ETHDEC reads. -/
theorem witness_CommandsDependOnTheirReadsOnly :
    (∀ r, readsReg .ethdec bareFrame r = true → bareFrame.regValue r =
      State.regValue { bareFrame with status := 5, plen := 9, aOper := 2, pbuf := [(0, 1)] } r) ∧
    (∃ t, exec .ethdec bareFrame = .next t ∧ t.err = 0) ∧
    (∃ t, exec .ethdec { bareFrame with status := 5, plen := 9, aOper := 2, pbuf := [(0, 1)] } = .next t) := by
  refine ⟨?_, next_err (by decide +kernel), next_of (by decide +kernel)⟩
  intro r h
  cases r <;> first | rfl | exact Bool.noConfusion h

theorem witness_CommandsAreIdempotent : (∃ t, runCommand 0x10 shortFrame = .next t) ∧
    (∃ t, runCommand 0x110 shortFrame = .next t) := ⟨next_of (by decide +kernel), next_of (by decide +kernel)⟩

/-- The last indices of the windows the register map speaks of. -/
theorem witness_RegisterMap : 127 < 128 ∧ 65535 < 65536 := by decide

/-- The last entry of `ET` is mapped and the next address is not. -/
theorem witness_AddressMap : State.reset.Inv ∧ State.reset.regAt 0x00081 = some (.et 1) ∧
    State.reset.maps (.et 1) = true ∧ State.reset.regAt 0x00082 = none :=
  ⟨witness_inv_reset, by decide +kernel, by decide +kernel, by decide +kernel⟩

theorem witness_HostRead : (State.reset.setPending [.read (regAddr (.wbuf 1513))]).Inv ∧
    (State.reset.setPending [.read (regAddr (.wbuf 1513))]).maps (.wbuf 1513) = true ∧
    (State.reset.setPending [.read (regAddr .cmd)]).maps .cmd = true :=
  ⟨inv_setPending witness_inv_reset _, by decide +kernel, by decide +kernel⟩

/-- An address that no register of the block has. -/
theorem witness_HostRead_unmapped : ∀ r, State.reset.maps r = true → regAddr r ≠ 0x00082 := by
  intro r h
  cases r with
  | et i =>
    have hi : i < 2 := of_decide_eq_true h
    interval_cases i <;> decide
  | wbuf k =>
    have hk : k < 1514 := of_decide_eq_true h
    intro e
    have := congrArg BitVec.toNat e
    simp [regAddr] at this
    omega
  | pbuf k =>
    have hk : k < 1500 := of_decide_eq_true h
    intro e
    have := congrArg BitVec.toNat e
    simp [regAddr] at this
    omega
  | fDst j => revert j; decide
  | fSrc j => revert j; decide
  | aSha j => revert j; decide
  | aSpa j => revert j; decide
  | aTha j => revert j; decide
  | aTpa j => revert j; decide
  | _ => decide

theorem witness_HostWrite : (State.reset.setPending [.write 0x00000 0x10]).Inv ∧
    State.reset.maps (.et 0) = true ∧ hostWritable (.et 0) = false ∧
    State.reset.maps (.fDst 5) = true ∧ hostWritable (.fDst 5) = true ∧
    State.reset.maps (.pbuf 1499) = true ∧ hostWritable (.pbuf 1499) = true :=
  ⟨inv_setPending witness_inv_reset _, by decide +kernel, by decide +kernel, by decide +kernel, by decide +kernel,
    by decide +kernel, by decide +kernel⟩

theorem witness_ReadOnlyRegisters : (State.reset.setPending [.write 0x00001 5]).Inv ∧
    (State.reset.setPending [.write 0x00001 5]).port.pending = .write 0x00001 5 :: [] ∧
    1 < State.reset.et.length := ⟨inv_setPending witness_inv_reset _, rfl, by decide +kernel⟩

theorem witness_OnlyUnmappedAccessesStop : State.nextMapped (State.reset.setPending [.read 0x00081]) ∧
    ¬ State.nextMapped (State.reset.setPending [.read 0x00082]) ∧
    ¬ State.nextMapped (State.reset.setPending [.write 0x30000 1]) := by
  refine ⟨?_, ?_, ?_⟩ <;> simp only [State.nextMapped, State.setPending, State.setPort] <;> decide +kernel

theorem witness_OnlyResetWritesTheRegisterFile :
    (∃ t, step (v53.setPending [.reset]) = .next t) ∧ (v53.setPending [.reset]).port.pending = .reset :: [] ∧
    (∃ t, step (v53.setPending [.write 0x00000 0x22]) = .next t) ∧
    (State.reset.setPending [.read (BitVec.ofNat 18 (0x00080 + 1))]).Inv ∧ State.reset.et[1]? = some 0x0806 :=
  ⟨next_of (by decide +kernel), rfl, next_of (by decide +kernel), inv_setPending witness_inv_reset _, by decide +kernel⟩

theorem witness_OnlyCommandsWriteStatusAndResult :
    (∃ t, step (State.reset.setPending [.write 0x00001 5]) = .next t) ∧
    (∀ v es, (State.reset.setPending [.write 0x00001 5]).port.pending ≠ .write 0x00000 v :: es) ∧
    (∀ es, (State.reset.setPending [.write 0x00001 5]).port.pending ≠ .reset :: es) :=
  ⟨next_of (by decide +kernel), by simp [State.setPending, State.setPort], by simp [State.setPending, State.setPort]⟩

/-- The host overwrites both lengths and both buffers. -/
theorem witness_DecodedValues :
    (heldFrame.setPending ([(Reg.wlen, 9), (.wbuf 1513, 0x1FF), (.plen, 2), (.pbuf 0, 1)].map
      (fun x => .write (regAddr x.1) x.2))).Inv ∧
    (∀ x ∈ [((.wlen, 9) : Reg × Word), (.wbuf 1513, 0x1FF), (.plen, 2), (.pbuf 0, 1)], heldFrame.maps x.1 = true) ∧
    (∀ x ∈ [((.wlen, 9) : Reg × Word), (.wbuf 1513, 0x1FF)], x.1 = .wlen ∨ ∃ k, x.1 = .wbuf k) ∧
    (∀ x ∈ [((.wlen, 9) : Reg × Word), (.wbuf 1513, 0x1FF), (.plen, 2), (.pbuf 0, 1)],
      x.1 = .wlen ∨ x.1 = .plen ∨ (∃ k, x.1 = .wbuf k) ∨ ∃ k, x.1 = .pbuf k) := by
  refine ⟨inv_setPending witness_inv_heldFrame _, by decide +kernel, ?_, ?_⟩ <;> simp

/-- An empty buffer and a whole one. -/
theorem witness_LoadWire : (v53.setPending (encodeScript (ldwire []))).Inv ∧
    (v53.setPending (encodeScript (ldwire (List.replicate 1514 0xAA)))).Inv ∧
    (List.replicate 1514 (0xAA : Byte)).length ≤ v53.cfg.wbufBytes :=
  ⟨inv_setPending witness_inv_v53 _, inv_setPending witness_inv_v53 _, by decide +kernel⟩

theorem witness_NewRequestScript :
    (v53.setPending (encodeScript (newreq ⟨1, 2, 3, 4, 5, 6⟩ zeroMac ⟨10, 0, 0, 1⟩ ⟨10, 0, 0, 2⟩))).Inv :=
  inv_setPending witness_inv_v53 _

theorem witness_TransmitPath : (heldFrame.setPending (encodeScript txarp)).Inv ∧
    (heldFrame.setPending (encodeScript txarp)).et[heldFrame.fType.toNat]? = some 0x0806 :=
  ⟨inv_setPending witness_inv_heldFrame _, by decide +kernel⟩

/-- `ARPA` as a packet. -/
def arpaPacket : ArpPacket := ⟨1, 0x0800, 6, 4, 1, ⟨0x11, 0x22, 0x33, 0x44, 0x55, 0x66⟩, ⟨0x0A, 0x00, 0x00, 0x01⟩, zeroMac,
  ⟨0x0A, 0x00, 0x00, 0x02⟩⟩

theorem witness_ReceivePath : (arpFrame.setPending (encodeScript rxarp)).Inv ∧ profileValid arpaPacket ∧
    arpFrame.wlen.toNat = 42 + (List.replicate 18 (0 : Byte)).length ∧ 42 + 18 ≤ arpFrame.cfg.wbufBytes ∧
    arpFrame.bufBytes .wire (42 + 18) = macBytes ⟨0xAA, 0xBB, 0xCC, 0xDD, 0xEE, 0xFF⟩ ++
      macBytes ⟨0x11, 0x22, 0x33, 0x44, 0x55, 0x66⟩ ++ [0x08, 0x06] ++ arpEncode arpaPacket ++ List.replicate 18 0 :=
  ⟨inv_setPending witness_inv_arpFrame _, by decide +kernel, by decide +kernel, by decide +kernel, by decide +kernel⟩

/-- An unregistered type, a type that is not ARP, and an ARP frame whose payload is too short. -/
theorem witness_ReceivePathStops_ethdec : (wired (hdr 0x99 0x99) 14).Inv ∧
    (∀ f, ethDecode (wired (hdr 0x99 0x99) 14).et ((wired (hdr 0x99 0x99) 14).bufBytes .wire 14) ≠ .ok f) := by
  refine ⟨by constructor <;> decide +kernel, fun f h => ?_⟩
  have e : ethDecode (wired (hdr 0x99 0x99) 14).et ((wired (hdr 0x99 0x99) 14).bufBytes .wire 14) =
    .error (.unsupportedEtherType 0x9999) := by decide +kernel
  rw [e] at h
  exact Except.noConfusion rfl rfl (heq_of_eq h)

theorem witness_ReceivePathStops_type : shortFrame.wlen.toNat ≤ shortFrame.cfg.wbufBytes ∧
    (ethDecode shortFrame.et (shortFrame.bufBytes .wire 17)).map EthFrame.type = .ok 0 ∧ (0 : EtherTypeId) ≠ 1 := by
  decide +kernel

theorem witness_ReceivePathStops_arpdec :
    (ethDecode bareFrame.et (bareFrame.bufBytes .wire 14)).map EthFrame.type = .ok 1 ∧
    (ethDecode bareFrame.et (bareFrame.bufBytes .wire 14)).map EthFrame.payload = .ok [] ∧
    arpDecode false [] = .error .insufficientData := by decide +kernel

theorem witness_Reset : (v53.setPending [.reset, .read 0x00080]).port.pending = .reset :: [.read 0x00080] := rfl

/-- The default parameters, and the extreme ones: 128 entries, a strict block, the smallest and the greatest buffer. -/
theorem witness_configs : Config.standard.wf ∧
    (Config.mk (0x0800 :: 0x0806 :: (List.range 126).map (fun i => BitVec.ofNat 16 (0x1000 + i))) 65536 true).wf ∧
    (Config.mk [0x0800, 0x0806] 42 false).wf := by decide +kernel

theorem witness_EveryStepKeepsTheInvariant : (arpFrame.setPending [.write 0x00000 0x10]).Inv ∧
    (∃ t, step (arpFrame.setPending [.write 0x00000 0x10]) = .next t) ∧
    (v53.setPending [.write 0x00000 0x21]).Inv ∧ (∃ t, step (v53.setPending [.write 0x00000 0x21]) = .next t) :=
  ⟨inv_setPending witness_inv_arpFrame _, next_of (by decide +kernel), inv_setPending witness_inv_v53 _, next_of (by decide +kernel)⟩

theorem witness_BigEndian : 0 + 2 ≤ ([0x12, 0x34] : List Byte).length ∧ 12 + 2 ≤ (hdr 0x08 0x06).length := by
  decide +kernel

theorem witness_MacText : macTextChars false ⟨0xAA, 0, 0, 0, 0, 1⟩ = macTextChars false ⟨0xAA, 0, 0, 0, 0, 1⟩ ∧
    (16 : Nat) < 17 := ⟨rfl, by decide⟩

end Sys2Proof.Tests
end

section
/-! PROOFS. 00_scope.md R10 and R15: the big-endian 16-bit fields and the MAC text form. -/

namespace Sys2Proof.Machine

/-! ### Big-endian fields -/

/-- Inside a sequence, the total read `byteAt` is the sequence's own byte. -/
theorem getElem?_eq_some_byteAt {b : List Byte} {i : Nat} (h : i < b.length) : b[i]? = some (byteAt b i) := by
  have hb : b[i]? = some b[i] := List.getElem?_eq_getElem h
  rw [byteAt_of_getElem? hb, hb]

@[simp] theorem be16_be16bytes (v : BitVec 16) : be16 (be16bytes v) 0 = v := hi_append_lo v

theorem be16bytes_toNat (v : BitVec 16) :
    (be16bytes v).map BitVec.toNat = [v.toNat / 256, v.toNat % 256] := by
  have hv := v.isLt
  have hi : (v.extractLsb' 8 8).toNat = v.toNat / 256 := by
    rw [BitVec.extractLsb'_toNat, Nat.shiftRight_eq_div_pow]
    omega
  have lo : (v.extractLsb' 0 8).toNat = v.toNat % 256 := BitVec.extractLsb'_toNat 0 8 v
  simp only [be16bytes, List.map_cons, List.map_nil, hi, lo]

/-! ### The MAC text form -/

@[simp] theorem length_macTextChars (upper : Bool) (m : Mac) : (macTextChars upper m).length = 17 := rfl

/-- Each byte takes three positions: its two digits, then the colon that parts it from the next byte. -/
theorem macTextChars_getElem? (upper : Bool) (m : Mac) {k : Nat} (hk : k < 17) :
    (macTextChars upper m)[k]? =
      some (if k % 3 = 2 then ':' else (byteText upper (byteAt (macBytes m) (k / 3))).getD (k % 3) '0') := by
  interval_cases k <;> rfl

/-- The text holds the digits of byte `j` at position `3 * j`. -/
theorem take_drop_macTextChars (upper : Bool) (m : Mac) (j : Fin 6) :
    ((macTextChars upper m).drop (3 * j)).take 2 = byteText upper (macByte m j) := by
  fin_cases j <;> rfl

theorem byteText_getD_ne_colon (upper : Bool) (v : Byte) (k : Nat) : (byteText upper v).getD k '0' ≠ ':' := by
  match k with
  | 0 => exact hexDigits_ne_colon upper (v.toNat / 16)
  | 1 => exact hexDigits_ne_colon upper (v.toNat % 16)
  | _ + 2 => exact (by decide : '0' ≠ ':')

theorem macTextChars_colon_iff (upper : Bool) (m : Mac) {k : Nat} (hk : k < 17) :
    (macTextChars upper m)[k]? = some ':' ↔ k % 3 = 2 := by
  rw [macTextChars_getElem? upper m hk, Option.some_inj]
  split
  next hc => simp only [hc]
  next hc => simp only [hc, byteText_getD_ne_colon]

/-- The text determines the address, since each byte is read back from its own two digits. -/
theorem macTextChars_inj (upper : Bool) {m m' : Mac} (h : macTextChars upper m = macTextChars upper m') : m = m' :=
  mac_ext_bytes fun j => byteText_inj upper (by
    rw [← take_drop_macTextChars, ← take_drop_macTextChars, h])

end Sys2Proof.Machine

open Sys2Proof Sys2Proof.Machine

/-- Settles O53: the colons by the character at each position, the address by the two digits of each byte. -/
theorem macTextIsCanonical : Obligations.MacTextIsCanonical := by
  unfold Obligations.MacTextIsCanonical
  intro upper m m'
  exact ⟨length_macTextChars upper m, fun k hk => macTextChars_colon_iff upper m hk, macTextChars_inj upper,
    by decide⟩

/-- Settles O52: `be16` and `be16bytes` put two bytes together and take them apart, high byte first. -/
theorem bigEndianFieldsRoundTrip : Obligations.BigEndianFieldsRoundTrip := by
  unfold Obligations.BigEndianFieldsRoundTrip
  refine ⟨fun b i h => ?_, fun v => ⟨be16_be16bytes v, be16bytes_toNat v⟩⟩
  exact ⟨byteAt b i, byteAt b (i + 1), getElem?_eq_some_byteAt (by omega), getElem?_eq_some_byteAt (by omega),
    be16_toNat b i, be16bytes_be16 b i⟩

end

section
/-! PROOFS. 10_state.md R25, R36, R37 and R43: the invariant of the block, at reset and over every step. -/

namespace Sys2Proof.Machine

/-! ### What keeps the invariant -/

/-- The invariant speaks of the parameters, the register file, the buffers, `STATUS` and `RESULT` only. -/
theorem inv_of_kept {s t : State} (h : s.Inv) (hc : t.cfg = s.cfg) (he : t.et = s.et) (hs : t.status = s.status)
    (hr : t.result = s.result) (hw : t.wbuf = s.wbuf) (hp : t.pbuf = s.pbuf) : t.Inv := by
  have hv : t.valid = s.valid := by simp only [State.valid, hr]
  have hv' : t.value = s.value := by simp only [State.value, hr]
  exact inv_congr h hc he hs (hr ▸ h.resultReserved) (by rw [hv, hv']; exact h.valueZero)
    (hw ▸ h.wbufForm) (hw ▸ h.wbufIn) (hp ▸ h.pbufForm) (hp ▸ h.pbufIn)

/-- Nothing of the host's side of the port is in the invariant. -/
theorem inv_setPort {s : State} (h : s.Inv) (p : Port) : (s.setPort p).Inv :=
  inv_of_kept h rfl rfl rfl rfl rfl rfl

theorem inv_setPending {s : State} (h : s.Inv) (es : List HostEvent) : (s.setPending es).Inv :=
  inv_setPort h _

/-- A lookup's answer: reserved bits 0, and no `VALUE` without `VALID`. -/
theorem inv_setResult {s : State} (h : s.Inv) {v : Word} (hr : v.extractLsb' 17 15 = 0)
    (hv : v.getLsbD 16 = false → v.extractLsb' 0 16 = 0) : (s.setResult v).Inv :=
  inv_congr h rfl rfl rfl hr hv h.wbufForm h.wbufIn h.pbufForm h.pbufIn

theorem inv_setResult_valid {s : State} (h : s.Inv) (v : BitVec 16) : (s.setResult (validResult v)).Inv :=
  inv_setResult h (validResult_reserved v) (by simp [validResult_valid])

theorem inv_writeBuf_wire {s : State} (h : s.Inv) {base : Nat} {bs : List Byte}
    (hb : base + bs.length ≤ s.cfg.wbufBytes) : (s.writeBuf .wire base bs).Inv :=
  inv_congr h rfl rfl rfl h.resultReserved h.valueZero (overlay_wf h.wbufForm base bs) (overlay_within h.wbufIn hb)
    h.pbufForm h.pbufIn

theorem inv_writeBuf_payload {s : State} (h : s.Inv) {base : Nat} {bs : List Byte}
    (hb : base + bs.length ≤ s.cfg.pbufBytes) : (s.writeBuf .payload base bs).Inv :=
  inv_congr h rfl rfl rfl h.resultReserved h.valueZero h.wbufForm h.wbufIn (overlay_wf h.pbufForm base bs)
    (overlay_within h.pbufIn hb)

/-- A successful end, whose `INFO` is 0. -/
theorem inv_finish_ok {s : State} (h : s.Inv) : (s.finish .ok 0).Inv :=
  inv_finish h (fun _ => rfl) (by simp) (by simp)

/-- Every parameter choice leaves room for a packet, and for a frame header around each payload. -/
theorem capacities_of_inv {s : State} (h : s.Inv) :
    28 ≤ s.cfg.pbufBytes ∧ s.cfg.wbufBytes = 14 + s.cfg.pbufBytes := by
  obtain ⟨-, -, -, -, -, -, hw, -⟩ := h.cfgOk
  simp only [Config.pbufBytes]
  omega

/-- The payload of a decoded frame is what follows its header. -/
theorem length_payload_of_ethDecode {s : State} {n : Nat} {f : EthFrame}
    (hd : ethDecode s.et (s.bufBytes .wire n) = .ok f) : f.payload.length = n - 14 := by
  obtain ⟨-, -, -, -, hf⟩ := ethDecode_eq_ok.mp hd
  simp [hf]

theorem inv_setFrame {s : State} {f : EthFrame} (h : s.Inv) (hw : s.wlen.toNat ≤ s.cfg.wbufBytes)
    (hd : ethDecode s.et (s.bufBytes .wire s.wlen.toNat) = .ok f) : (s.setFrame f).Inv := by
  refine inv_of_kept (inv_writeBuf_payload (base := 0) (bs := f.payload) h ?_) rfl rfl rfl rfl rfl rfl
  simp only [length_payload_of_ethDecode hd, Config.pbufBytes]
  omega

theorem inv_setRaw {s : State} {f : EthFrame} (h : s.Inv) (hf : s.frame? = some f) (code : Code) :
    (s.setRaw (frameBytes f code)).Inv := by
  obtain ⟨hp, -, hfe⟩ := frame?_eq_some.mp hf
  obtain ⟨-, hc⟩ := capacities_of_inv h
  refine inv_of_kept (inv_writeBuf_wire (base := 0) (bs := frameBytes f code) h ?_) rfl rfl rfl rfl rfl rfl
  simp only [length_frameBytes, hfe, length_bufBytes]
  omega

theorem inv_setPayload {s : State} (h : s.Inv) (p : ArpPacket) : (s.setPayload (arpEncode p)).Inv := by
  obtain ⟨hc, -⟩ := capacities_of_inv h
  refine inv_of_kept (inv_writeBuf_payload (base := 0) (bs := arpEncode p) h ?_) rfl rfl rfl rfl rfl rfl
  simpa using hc

/-! ### Every kind of step -/

/-- Every command keeps the invariant; a code that goes to `INFO` is one that `Resolve` did not find. -/
theorem inv_ran {i : Instr} {s t : State} (h : s.Inv) (hr : Ran i s t) : t.Inv := by
  cases hr with
  | etresSome _ | etwcSome _ => exact inv_finish_ok (inv_setResult_valid h _)
  | etresNone _ => exact inv_finish_ok (inv_setResult h rfl fun _ => rfl)
  | ethdecOk hw hd => exact inv_finish_ok (inv_setFrame h hw hd)
  | ethencOk hf _ => exact inv_finish_ok (inv_setRaw h hf _)
  | arpdecOk _ _ => exact inv_finish_ok (inv_of_kept h rfl rfl rfl rfl rfl rfl)
  | arpenc => exact inv_finish_ok (inv_setPayload h _)
  | arpreq => exact inv_finish_ok (inv_of_kept h rfl rfl rfl rfl rfl rfl)
  | ethdecType _ _ hr => exact inv_finish h (by simp) (fun _ => resolve_eq_none.mp hr) (by simp)
  | arpdecProfile _ _ _ _ hs _ => exact inv_finish h (fun _ => rfl) (by simp) (fun _ => hs)
  | etwcBad _ | ethdecBad _ | ethdecShort _ _ | ethencBad _ | arpdecBad _ | arpdecShort _ _ | arpdecLength _ _ _ =>
    exact inv_finish h (fun _ => rfl) (by simp) (by simp)

theorem inv_runCommand {w : Word} {s t : State} (h : s.Inv) (hr : runCommand w s = .next t) : t.Inv := by
  obtain ⟨i, -, hi⟩ | ⟨-, rfl⟩ := runCommand_cases hr
  · exact inv_ran h hi
  · exact inv_finish h (fun _ => rfl) (by simp) (by simp)

/-- A write to a register the block has keeps the invariant: a buffer byte stays inside its capacity, and no other
host-writable register is in the invariant. -/
theorem inv_setReg {s : State} {r : Reg} (h : s.Inv) (hm : s.maps r = true) (v : Word) : (s.setReg r v).Inv := by
  cases r
  case wbuf k =>
    have hk : k < s.cfg.wbufBytes := of_decide_eq_true hm
    exact inv_writeBuf_wire h hk
  case pbuf k =>
    have hk : k < s.cfg.pbufBytes := of_decide_eq_true hm
    exact inv_writeBuf_payload h hk
  all_goals exact inv_of_kept h rfl rfl rfl rfl rfl rfl

/-- The state reset leaves has the invariant. -/
theorem inv_resetOf {c : Config} (hc : c.wf) (n : Nat) (p : Port) : (State.resetOf c n p).Inv where
  cfgOk := hc
  etLoaded := rfl
  wbufForm := .nil
  wbufIn := by simp [State.resetOf]
  pbufForm := .nil
  pbufIn := by simp [State.resetOf]
  statusReserved := by simp [State.resetOf]
  errKnown := Nat.zero_le 6
  infoZero := fun _ => by simp [State.resetOf, State.info]
  infoUnresolved := fun h => absurd h (by simp [State.resetOf, State.err])
  profileStrict := fun h => absurd h (by simp [State.resetOf, State.err])
  resultReserved := by simp [State.resetOf]
  valueZero := fun _ => by simp [State.resetOf, State.value]

/-- The invariant over one step, by what a step can do. -/
theorem inv_step {s t : State} (h : s.Inv) (hs : step s = .next t) : t.Inv := by
  obtain ⟨-, rfl⟩ | ⟨_, _, _, -, -, rfl⟩ | ⟨_, _, -, hc⟩ | ⟨a, v, es, r, -, hr, -, rfl⟩ | ⟨_, -, rfl⟩ |
    ⟨_, _, _, _, _, -, rfl⟩ := step_cases hs
  · exact h
  · exact inv_setPort h _
  · exact inv_runCommand (inv_setPending h _) hc
  · obtain ⟨hm, -⟩ := maps_of_regAt hr
    exact inv_setReg (inv_setPending h es) hm v
  · exact inv_resetOf h.cfgOk _ _
  · exact inv_setPending h _

end Sys2Proof.Machine

open Sys2Proof Sys2Proof.Machine

/-- Settles O51, by the six things a step can do. -/
theorem everyStepKeepsTheInvariant : Obligations.EveryStepKeepsTheInvariant := by
  unfold Obligations.EveryStepKeepsTheInvariant
  exact fun s t h hs => inv_step h hs

/-- Settles O50. -/
theorem resetHasTheInvariant : Obligations.ResetHasTheInvariant := by
  unfold Obligations.ResetHasTheInvariant
  exact fun c n p hc => inv_resetOf hc n p

end

section
/-! PROOFS. 10_state.md R36 and R41: what the commands depend on. -/

namespace Sys2Proof.Machine

/-! ### Two runs of one command -/

/-- A command runs alike from two states: it ends with the same `STATUS` and, on success, with the same values in all
that it writes. -/
def runsAlike (i : Instr) (s₁ s₂ : State) : Prop :=
  ∃ t₁ t₂, exec i s₁ = .next t₁ ∧ exec i s₂ = .next t₂ ∧ t₁.status = t₂.status ∧
    (t₁.err = 0 → ∀ r, writesReg i s₁ r = true → t₁.regValue r = t₂.regValue r)

/-- No command's "writes" column names `STATUS`, which every command writes at its end. -/
theorem ne_status_of_writesReg {i : Instr} {s : State} {r : Reg} (h : writesReg i s r = true) : r ≠ .status := by
  rintro rfl
  cases i <;> cases h

theorem runsAlike_of_fail {i : Instr} {s₁ s₂ : State} {e : ErrCode} {info : BitVec 16} (he : errBits e ≠ 0)
    (h₁ : exec i s₁ = .next (s₁.finish e info)) (h₂ : exec i s₂ = .next (s₂.finish e info)) : runsAlike i s₁ s₂ :=
  ⟨_, _, h₁, h₂, rfl, fun h0 => absurd (finish_err s₁ e info ▸ h0) he⟩

theorem runsAlike_of_error {i : Instr} {s₁ s₂ : State} {e : CodecError}
    (h₁ : exec i s₁ = .next (s₁.finishError e)) (h₂ : exec i s₂ = .next (s₂.finishError e)) : runsAlike i s₁ s₂ := by
  cases e <;> exact runsAlike_of_fail (by decide) h₁ h₂

theorem runsAlike_of_ok {i : Instr} {s₁ s₂ u₁ u₂ : State} (h₁ : exec i s₁ = .next (u₁.finish .ok 0))
    (h₂ : exec i s₂ = .next (u₂.finish .ok 0))
    (h : ∀ r, writesReg i s₁ r = true → u₁.regValue r = u₂.regValue r) : runsAlike i s₁ s₂ := by
  refine ⟨_, _, h₁, h₂, rfl, fun _ r hr => ?_⟩
  have hs := ne_status_of_writesReg hr
  rw [regValue_finish _ _ _ hs, regValue_finish _ _ _ hs, h r hr]

/-! ### What the reads of a command say of the fields -/

/-- A register's value on the data path determines the register. -/
theorem eq_of_setWidth_eq {n : Nat} {a b : BitVec n} (h : a.setWidth 32 = b.setWidth 32) (hn : n ≤ 32 := by decide) :
    a = b := by
  simpa only [BitVec.setWidth_setWidth_of_le _ hn, BitVec.setWidth_eq] using congrArg (BitVec.setWidth n) h

section
variable {s₁ s₂ : State}

theorem packet_eq_of_reads (h : ∀ r, readsReg .arpenc s₁ r = true → s₁.regValue r = s₂.regValue r) :
    s₁.packet = s₂.packet := by
  simp only [State.packet, ArpPacket.mk.injEq]
  exact ⟨eq_of_setWidth_eq (h .aHtype rfl), eq_of_setWidth_eq (h .aPtype rfl), eq_of_setWidth_eq (h .aHln rfl),
    eq_of_setWidth_eq (h .aPln rfl), eq_of_setWidth_eq (h .aOper rfl),
    mac_ext_bytes fun j => eq_of_setWidth_eq (h (.aSha j) rfl),
    ipv4_ext_bytes fun j => eq_of_setWidth_eq (h (.aSpa j) rfl),
    mac_ext_bytes fun j => eq_of_setWidth_eq (h (.aTha j) rfl),
    ipv4_ext_bytes fun j => eq_of_setWidth_eq (h (.aTpa j) rfl)⟩

theorem frame?_eq_of_reads (hc : s₁.cfg = s₂.cfg) (he : s₁.et = s₂.et)
    (h : ∀ r, readsReg .ethenc s₁ r = true → s₁.regValue r = s₂.regValue r) : s₁.frame? = s₂.frame? := by
  have hd : s₁.fDst = s₂.fDst := mac_ext_bytes fun j => eq_of_setWidth_eq (h (.fDst j) rfl)
  have hs : s₁.fSrc = s₂.fSrc := mac_ext_bytes fun j => eq_of_setWidth_eq (h (.fSrc j) rfl)
  have ht : s₁.fType = s₂.fType := eq_of_setWidth_eq (h .fType rfl)
  have hp : s₁.plen = s₂.plen := h .plen rfl
  have hb : s₁.bufBytes .payload s₂.plen.toNat = s₂.bufBytes .payload s₂.plen.toNat :=
    bufBytes_congr fun k hk => eq_of_setWidth_eq (h (.pbuf k) (decide_eq_true (hp ▸ hk)))
  simp only [State.frame?, hd, hs, ht, hp, hb, hc, he]

theorem wireBytes_eq_of_reads (h : ∀ r, readsReg .ethdec s₁ r = true → s₁.regValue r = s₂.regValue r) :
    s₁.bufBytes .wire s₁.wlen.toNat = s₂.bufBytes .wire s₂.wlen.toNat := by
  have hl : s₁.wlen = s₂.wlen := h .wlen rfl
  rw [← hl]
  exact bufBytes_congr fun k hk => eq_of_setWidth_eq (h (.wbuf k) (decide_eq_true hk))

theorem arpDecode_eq_of_reads (hc : s₁.cfg = s₂.cfg)
    (h : ∀ r, readsReg .arpdec s₁ r = true → s₁.regValue r = s₂.regValue r) :
    arpDecode s₁.cfg.arpStrictTypes (s₁.bufBytes .payload s₁.plen.toNat) =
      arpDecode s₂.cfg.arpStrictTypes (s₂.bufBytes .payload s₂.plen.toNat) := by
  have hl : s₁.plen = s₂.plen := h .plen rfl
  rw [← hl, ← hc]
  refine arpDecode_congr (by simp) fun k hk => ?_
  rcases Nat.lt_or_ge k s₁.plen.toNat with hk' | hk'
  · rw [byteAt_bufBytes _ _ hk', byteAt_bufBytes _ _ hk']
    exact eq_of_setWidth_eq (h (.pbuf k) (decide_eq_true hk))
  · simp [byteAt, hk']

/-! ### Each command -/

theorem eq_result_of_writesReg_etres {code : Code} {s : State} {r : Reg} (h : writesReg (.etres code) s r = true) :
    r = .result := by
  cases r
  case result => rfl
  all_goals cases h

theorem eq_result_of_writesReg_etwc {id : EtherTypeId} {s : State} {r : Reg} (h : writesReg (.etwc id) s r = true) :
    r = .result := by
  cases r
  case result => rfl
  all_goals cases h

theorem etres_runsAlike (code : Code) (he : s₁.et = s₂.et) : runsAlike (.etres code) s₁ s₂ := by
  cases h : resolve s₁.et code with
  | none =>
    refine runsAlike_of_ok (exec_etres_none h) (exec_etres_none (he ▸ h)) fun r hr => ?_
    cases eq_result_of_writesReg_etres hr
    rfl
  | some id =>
    refine runsAlike_of_ok (exec_etres_some h) (exec_etres_some (he ▸ h)) fun r hr => ?_
    cases eq_result_of_writesReg_etres hr
    rfl

theorem etwc_runsAlike (id : EtherTypeId) (he : s₁.et = s₂.et) : runsAlike (.etwc id) s₁ s₂ := by
  cases h : wireCodeOf s₁.et id with
  | none => exact runsAlike_of_fail (by decide) (exec_etwc_none h) (exec_etwc_none (he ▸ h))
  | some code =>
    refine runsAlike_of_ok (exec_etwc_some h) (exec_etwc_some (he ▸ h)) fun r hr => ?_
    cases eq_result_of_writesReg_etwc hr
    rfl

theorem ethdec_runsAlike (hc : s₁.cfg = s₂.cfg) (he : s₁.et = s₂.et)
    (h : ∀ r, readsReg .ethdec s₁ r = true → s₁.regValue r = s₂.regValue r) : runsAlike .ethdec s₁ s₂ := by
  have hl : s₁.wlen = s₂.wlen := h .wlen rfl
  have hd : ethDecode s₂.et (s₂.bufBytes .wire s₂.wlen.toNat) = ethDecode s₁.et (s₁.bufBytes .wire s₁.wlen.toNat) := by
    rw [he, wireBytes_eq_of_reads h]
  rcases Nat.lt_or_ge s₁.cfg.wbufBytes s₁.wlen.toNat with hw | hw
  · exact runsAlike_of_fail (by decide) (exec_ethdec_bad hw) (exec_ethdec_bad (hc ▸ hl ▸ hw))
  cases hd₁ : ethDecode s₁.et (s₁.bufBytes .wire s₁.wlen.toNat) with
  | error e => exact runsAlike_of_error (exec_ethdec_error hw hd₁) (exec_ethdec_error (hc ▸ hl ▸ hw) (hd.trans hd₁))
  | ok f =>
    refine runsAlike_of_ok (exec_ethdec_ok hw hd₁) (exec_ethdec_ok (hc ▸ hl ▸ hw) (hd.trans hd₁)) fun r hr => ?_
    cases r
    case pbuf k =>
      have hk : k < s₁.wlen.toNat - 14 := of_decide_eq_true hr
      have hk' : k < f.payload.length := by rw [length_payload_of_ethDecode hd₁]; exact hk
      simp only [State.regValue, setFrame_bufByte_in _ _ hk']
    case plen => exact congrArg (· - 14) hl
    case fDst | fSrc | fType => rfl
    all_goals cases hr

theorem ethenc_runsAlike (hc : s₁.cfg = s₂.cfg) (he : s₁.et = s₂.et)
    (h : ∀ r, readsReg .ethenc s₁ r = true → s₁.regValue r = s₂.regValue r) : runsAlike .ethenc s₁ s₂ := by
  have hf : s₁.frame? = s₂.frame? := frame?_eq_of_reads hc he h
  cases hf₁ : s₁.frame? with
  | none => exact runsAlike_of_fail (by decide) (exec_ethenc_bad hf₁) (exec_ethenc_bad (hf ▸ hf₁))
  | some f =>
    obtain ⟨-, ht, hfe⟩ := frame?_eq_some.mp hf₁
    obtain ⟨code, hw⟩ : ∃ code, wireCodeOf s₁.et f.type = some code :=
      ⟨_, wireCodeOf_eq_some.mpr ⟨by simpa [hfe], rfl⟩⟩
    refine runsAlike_of_ok (exec_ethenc_ok hf₁ hw) (exec_ethenc_ok (hf ▸ hf₁) (he ▸ hw)) fun r hr => ?_
    cases r
    case wbuf k =>
      have hk : k < 14 + s₁.plen.toNat := of_decide_eq_true hr
      have hk' : k < (frameBytes f code).length := by simpa [length_frameBytes, hfe] using hk
      simp only [State.regValue, setRaw_bufByte_in _ _ hk']
    case wlen => exact congrArg (14 + ·) (h .plen rfl)
    all_goals cases hr

theorem arpdec_runsAlike (hc : s₁.cfg = s₂.cfg)
    (h : ∀ r, readsReg .arpdec s₁ r = true → s₁.regValue r = s₂.regValue r) : runsAlike .arpdec s₁ s₂ := by
  have hl : s₁.plen = s₂.plen := h .plen rfl
  have hd := arpDecode_eq_of_reads hc h
  rcases Nat.lt_or_ge s₁.cfg.pbufBytes s₁.plen.toNat with hp | hp
  · exact runsAlike_of_fail (by decide) (exec_arpdec_bad hp) (exec_arpdec_bad (hc ▸ hl ▸ hp))
  cases hd₁ : arpDecode s₁.cfg.arpStrictTypes (s₁.bufBytes .payload s₁.plen.toNat) with
  | error e =>
    exact runsAlike_of_error (exec_arpdec_error hp hd₁) (exec_arpdec_error (hc ▸ hl ▸ hp) (hd.symm.trans hd₁))
  | ok p =>
    refine runsAlike_of_ok (exec_arpdec_ok hp hd₁) (exec_arpdec_ok (hc ▸ hl ▸ hp) (hd.symm.trans hd₁)) fun r hr => ?_
    cases r
    case aHtype | aPtype | aHln | aPln | aOper | aSha | aSpa | aTha | aTpa => rfl
    all_goals cases hr

theorem arpenc_runsAlike (h : ∀ r, readsReg .arpenc s₁ r = true → s₁.regValue r = s₂.regValue r) :
    runsAlike .arpenc s₁ s₂ := by
  refine runsAlike_of_ok (exec_arpenc s₁) (exec_arpenc s₂) fun r hr => ?_
  rw [packet_eq_of_reads h]
  cases r
  case pbuf k =>
    have hk : k < (arpEncode s₂.packet).length := of_decide_eq_true hr
    simp only [State.regValue, setPayload_bufByte_in _ _ hk]
  case plen => rfl
  all_goals cases hr

theorem arpreq_runsAlike (s₁ s₂ : State) : runsAlike .arpreq s₁ s₂ := by
  refine runsAlike_of_ok (exec_arpreq s₁) (exec_arpreq s₂) fun r hr => ?_
  cases r
  case aHtype | aPtype | aHln | aPln | aOper => rfl
  all_goals cases hr

/-- Every command runs alike from two states that agree on its "reads" column and the parameters. -/
theorem runsAlike_of_reads {i : Instr} (hc : s₁.cfg = s₂.cfg) (he : s₁.et = s₂.et)
    (h : ∀ r, readsReg i s₁ r = true → s₁.regValue r = s₂.regValue r) : runsAlike i s₁ s₂ := by
  cases i with
  | etres code => exact etres_runsAlike code he
  | etwc id => exact etwc_runsAlike id he
  | ethdec => exact ethdec_runsAlike hc he h
  | ethenc => exact ethenc_runsAlike hc he h
  | arpdec => exact arpdec_runsAlike hc h
  | arpenc => exact arpenc_runsAlike h
  | arpreq => exact arpreq_runsAlike s₁ s₂

end

/-! ### `STATUS` is overwritten, not read -/

/-- No arm of `exec` looks at `STATUS`, and each ends by overwriting it. -/
theorem exec_setStatus (i : Instr) (s : State) (x : Word) : exec i { s with status := x } = exec i s := by
  cases i <;> rfl

end Sys2Proof.Machine

open Sys2Proof Sys2Proof.Machine

/-- Settles O30, command by command. -/
theorem commandsDependOnTheirReadsOnly : Obligations.CommandsDependOnTheirReadsOnly := by
  unfold Obligations.CommandsDependOnTheirReadsOnly
  intro i s₁ s₂ t₁ t₂ hc he h h₁ h₂
  obtain ⟨u₁, u₂, hu₁, hu₂, hs, hw⟩ := runsAlike_of_reads hc he h
  cases h₁.symm.trans hu₁
  cases h₂.symm.trans hu₂
  exact ⟨hs, hw⟩

/-- Settles O32: a word that decodes to no command overwrites `STATUS` too. -/
theorem statusIsNotSticky : Obligations.StatusIsNotSticky := by
  unfold Obligations.StatusIsNotSticky
  intro w x s
  simp only [runCommand, exec_setStatus]
  cases decode w <;> rfl

end

section
/-! PROOFS. 10_state.md R25, R38: the register map, and the register file in it. -/

namespace Sys2Proof.Machine

/-! ### Addresses -/

theorem regAddr_et_toNat {i : Nat} (h : i < 128) : (regAddr (.et i)).toNat = 0x00080 + i := by
  simp only [regAddr, BitVec.toNat_ofNat]
  omega

theorem regAddr_wbuf_toNat {k : Nat} (h : k < 65536) : (regAddr (.wbuf k)).toNat = 0x10000 + k := by
  simp only [regAddr, BitVec.toNat_ofNat]
  omega

theorem regAddr_pbuf_toNat {k : Nat} (h : k < 65536) : (regAddr (.pbuf k)).toNat = 0x20000 + k := by
  simp only [regAddr, BitVec.toNat_ofNat]
  omega

/-- The addresses of the four MAC register arrays. -/
theorem regAddr_mac_toNat (j : Fin 6) :
    (regAddr (.fDst j)).toNat = 0x00010 + j ∧ (regAddr (.fSrc j)).toNat = 0x00018 + j ∧
      (regAddr (.aSha j)).toNat = 0x00028 + j ∧ (regAddr (.aTha j)).toNat = 0x00038 + j := by
  fin_cases j <;> decide

/-- The addresses of the two IPv4 register arrays. -/
theorem regAddr_ipv4_toNat (j : Fin 4) :
    (regAddr (.aSpa j)).toNat = 0x00030 + j ∧ (regAddr (.aTpa j)).toNat = 0x00040 + j := by
  fin_cases j <;> decide

/-! ### Widths and access -/

theorem regWidth_eq_32_iff (r : Reg) : regWidth r = 32 ↔ r ∈ [Reg.cmd, .status, .result, .wlen, .plen] := by
  cases r <;> simp [regWidth]

theorem regWidth_eq_16_iff (r : Reg) :
    regWidth r = 16 ↔ r ∈ [Reg.fType, .aHtype, .aPtype, .aOper] ∨ ∃ i, r = .et i := by
  cases r <;> simp [regWidth]

theorem regWidth_cases (r : Reg) : regWidth r = 32 ∨ regWidth r = 16 ∨ regWidth r = 8 := by
  cases r <;> simp [regWidth]

theorem hostWritable_eq_false_iff (r : Reg) :
    hostWritable r = false ↔ r ∈ [Reg.cmd, .status, .result] ∨ ∃ i, r = .et i := by
  cases r <;> simp [hostWritable]

/-! ### Mapped and unmapped addresses -/

/-- The map and its inverse, in a block whose windows do not run into each other. -/
theorem regAt_eq_some_iff {s : State} {a : Addr} {r : Reg} (h : s.Inv) :
    s.regAt a = some r ↔ s.maps r = true ∧ regAddr r = a := by
  obtain ⟨hn, hw⟩ := bounds_of_inv h
  refine ⟨maps_of_regAt, ?_⟩
  rintro ⟨hm, rfl⟩
  exact regAt_regAddr hn hw hm

/-- An address is unmapped when no fixed register and no window has it. -/
theorem regAt_eq_none_iff {s : State} {a : Addr} :
    s.regAt a = none ↔ a.toNat ∉ fixedRegs.map (fun r => (regAddr r).toNat) ∧
      ¬ (0x00080 ≤ a.toNat ∧ a.toNat < 0x00080 + s.et.length) ∧
      ¬ (0x10000 ≤ a.toNat ∧ a.toNat < 0x10000 + s.cfg.wbufBytes) ∧
      ¬ (0x20000 ≤ a.toNat ∧ a.toNat < 0x20000 + s.cfg.pbufBytes) := by
  rw [← find_fixedRegs_none_iff]
  simp only [State.regAt]
  cases fixedRegs.find? (fun r => regAddr r == a) with
  | some r => simp
  | none => split_ifs <;> simp_all

/-- The addresses of the fixed registers, written out. -/
theorem fixedRegs_addresses : fixedRegs.map (fun r => (regAddr r).toNat) =
    [0x00, 0x01, 0x02, 0x03, 0x04, 0x05, 0x10, 0x11, 0x12, 0x13, 0x14, 0x15, 0x18, 0x19, 0x1A, 0x1B, 0x1C, 0x1D,
     0x20, 0x21, 0x22, 0x23, 0x24, 0x28, 0x29, 0x2A, 0x2B, 0x2C, 0x2D, 0x30, 0x31, 0x32, 0x33,
     0x38, 0x39, 0x3A, 0x3B, 0x3C, 0x3D, 0x40, 0x41, 0x42, 0x43] := by
  decide

/-- The fixed registers lie in nine runs of addresses. -/
theorem mem_fixedRegs_addresses_iff (n : Nat) :
    n ∈ fixedRegs.map (fun r => (regAddr r).toNat) ↔
      n ≤ 0x05 ∨ (0x10 ≤ n ∧ n ≤ 0x15) ∨ (0x18 ≤ n ∧ n ≤ 0x1D) ∨ (0x20 ≤ n ∧ n ≤ 0x24) ∨ (0x28 ≤ n ∧ n ≤ 0x2D) ∨
      (0x30 ≤ n ∧ n ≤ 0x33) ∨ (0x38 ≤ n ∧ n ≤ 0x3D) ∨ (0x40 ≤ n ∧ n ≤ 0x43) := by
  rw [fixedRegs_addresses]
  simp only [List.mem_cons, List.not_mem_nil, or_false]
  omega

/-! ### The register file -/

/-- Every step but a reset leaves the register file; a reset loads it from the parameters. -/
theorem step_et {s t : State} (h : step s = .next t) :
    (t.et = s.et ∧ ∀ es, s.port.pending ≠ .reset :: es) ∨
      (t.et = s.cfg.etypeTable ∧ ∃ es, s.port.pending = .reset :: es) := by
  obtain ⟨hp, rfl⟩ | ⟨_, _, _, hp, -, rfl⟩ | ⟨_, _, hp, hc⟩ | ⟨_, _, _, _, hp, -, -, rfl⟩ | ⟨es, hp, rfl⟩ |
    ⟨_, _, _, _, _, hp, rfl⟩ := step_cases h
  · exact .inl ⟨rfl, by simp [hp]⟩
  · exact .inl ⟨rfl, by simp [hp]⟩
  · exact .inl ⟨(runCommand_fixed hc).1, by simp [hp]⟩
  · exact .inl ⟨setReg_et _ _ _, by simp [hp]⟩
  · exact .inr ⟨rfl, es, hp⟩
  · exact .inl ⟨rfl, by simp [hp]⟩

theorem regValue_et {s : State} {i : Nat} {code : Code} (h : s.et[i]? = some code) :
    s.regValue (.et i) = code.setWidth 32 := by
  simp [State.regValue, h]

end Sys2Proof.Machine

open Sys2Proof Sys2Proof.Machine

/-- Settles O34. -/
theorem addressMapIsOneToOne : Obligations.AddressMapIsOneToOne := by
  unfold Obligations.AddressMapIsOneToOne
  exact fun s a r h => regAt_eq_some_iff h

/-- Settles O35: the gaps are the addresses outside the runs of the fixed registers and the three windows. -/
theorem unmappedAddressesAreTheListedGaps : Obligations.UnmappedAddressesAreTheListedGaps := by
  unfold Obligations.UnmappedAddressesAreTheListedGaps
  intro s a h
  have ha := a.isLt
  obtain ⟨hn, hw⟩ := bounds_of_inv h
  obtain ⟨-, hp⟩ := capacities_of_inv h
  rw [regAt_eq_none_iff, mem_fixedRegs_addresses_iff]
  rw [h.etLoaded] at hn ⊢
  simp only [Config.etypeN]
  omega

/-- Settles O40: of the six things a step can do, reset alone writes the register file. -/
theorem onlyResetWritesTheRegisterFile : Obligations.OnlyResetWritesTheRegisterFile := by
  unfold Obligations.OnlyResetWritesTheRegisterFile
  refine ⟨fun s t h => ?_, fun s es i code h hc hp => ?_⟩
  · obtain ⟨he, hn⟩ | ⟨he, es, hp⟩ := step_et h
    · exact ⟨fun es hp => absurd hp (hn es), fun _ => he⟩
    · exact ⟨fun _ _ => he, fun hn => absurd hp (hn es)⟩
  · obtain ⟨hi, -⟩ := List.getElem?_eq_some_iff.mp hc
    have hr : s.regAt (regAddr (.et i)) = some (.et i) := (regAt_eq_some_iff h).mpr ⟨decide_eq_true hi, rfl⟩
    exact step_of_read (r := .et i) hp hr (regValue_et hc)

/-- Settles O33. -/
theorem registerMapIsAsListed : Obligations.RegisterMapIsAsListed := by
  unfold Obligations.RegisterMapIsAsListed
  exact ⟨rfl, rfl, rfl, rfl, rfl, rfl, regAddr_mac_toNat, rfl, rfl, rfl, rfl, rfl, regAddr_ipv4_toNat,
    fun _ => regAddr_et_toNat, fun _ hk => ⟨regAddr_wbuf_toNat hk, regAddr_pbuf_toNat hk⟩,
    regWidth_eq_32_iff, regWidth_eq_16_iff, regWidth_cases, hostWritable_eq_false_iff⟩

end

section
/-! PROOFS. 10_state.md R33, R35, R43 and R44: the step that is a command, the step that is a reset, and steps that
overwrite a buffer. -/

namespace Sys2Proof.Machine

/-! ### A command word -/

theorem runCommand_of_decode {w : Word} {i : Instr} (h : decode w = .ok i) (s : State) :
    runCommand w s = exec i s := by
  simp only [runCommand, h]

/-- Placing a whole word places that word. -/
theorem withFetchWord_of_word (s : State) (w : Word) :
    s.withFetchWord 32 w.toNat = s.setPending (.write 0x00000 w :: s.port.pending) := by
  have hw : w.toNat % 2 ^ 32 = w.toNat := Nat.mod_eq_of_lt w.isLt
  simp only [State.withFetchWord, hw, BitVec.ofNat_toNat, BitVec.setWidth_eq]
  rfl

/-! ### Reset -/

theorem step_of_reset {s : State} {es : List HostEvent} (h : s.port.pending = .reset :: es) :
    step s = .next (State.resetOf s.cfg (s.resets + 1) { s.port with pending := es }) := by
  rw [step_of_pending h]
  rfl

@[simp] theorem macByte_zeroMac (j : Fin 6) : macByte zeroMac j = 0 := by
  fin_cases j <;> rfl

@[simp] theorem ipv4Byte_zeroIpv4 (j : Fin 4) : ipv4Byte zeroIpv4 j = 0 := by
  fin_cases j <;> rfl

/-- Every register below the windows is 0 after reset. -/
theorem regValue_resetOf {c : Config} {n : Nat} {p : Port} {r : Reg} (hr : r ∈ fixedRegs) :
    (State.resetOf c n p).regValue r = 0 := by
  obtain ⟨he, hw, hp⟩ := not_window_of_fixed hr
  cases r
  case et i => exact absurd rfl (he i)
  case wbuf k => exact absurd rfl (hw k)
  case pbuf k => exact absurd rfl (hp k)
  all_goals simp [State.regValue, State.resetOf]

theorem mem_resetOf (c : Config) (n : Nat) (p : Port) (b : Buffer) : (State.resetOf c n p).mem b = [] := by
  cases b <;> rfl

/-! ### Overwriting a buffer -/

/-- The registers of the wire buffer: its length and its bytes. -/
abbrev isWireReg (r : Reg) : Prop := r = .wlen ∨ ∃ k, r = .wbuf k

/-- The registers of the two buffers: their lengths and their bytes. -/
abbrev isBufferReg (r : Reg) : Prop := r = .wlen ∨ r = .plen ∨ (∃ k, r = .wbuf k) ∨ ∃ k, r = .pbuf k

/-- What the decoders leave in registers of their own: the packet and the frame header. -/
def State.decodedHeaders (s : State) : ArpPacket × Mac × Mac × EtherTypeId := (s.packet, s.fDst, s.fSrc, s.fType)

theorem isBufferReg_of_isWireReg {r : Reg} (h : isWireReg r) : isBufferReg r := by
  obtain h | h := h
  · exact .inl h
  · exact .inr (.inr (.inl h))

theorem ne_cmd_of_isBufferReg {r : Reg} (h : isBufferReg r) : r ≠ .cmd := by
  obtain rfl | rfl | ⟨k, rfl⟩ | ⟨k, rfl⟩ := h <;> simp

theorem setReg_keeps_frame? (s : State) (r : Reg) (v : Word) (h : isWireReg r) : (s.setReg r v).frame? = s.frame? := by
  obtain rfl | ⟨k, rfl⟩ := h
  · rfl
  · exact frame?_writeBuf_wire s k _

theorem setReg_keeps_decodedHeaders (s : State) (r : Reg) (v : Word) (h : isBufferReg r) :
    (s.setReg r v).decodedHeaders = s.decodedHeaders := by
  obtain rfl | rfl | ⟨k, rfl⟩ | ⟨k, rfl⟩ := h <;> rfl

/-- When all the host has pending is writes to the buffers, it takes one step for each of them. -/
theorem runsTo_bufferWrites {s : State} {ws : List (Reg × Word)} {post : State → Prop} (h : s.Inv)
    (hm : ∀ x ∈ ws, s.maps x.1 = true) (hb : ∀ x ∈ ws, isBufferReg x.1)
    (hp : s.port.pending = ws.map (fun x => .write (regAddr x.1) x.2))
    (hpost : post ((applyWrites ws s).setPending [])) : runsTo ws.length s post := by
  obtain ⟨hn, hw⟩ := bounds_of_inv h
  exact runsTo_writes (n := 0) (es := []) hn hw (fun x hx => ⟨hm x hx, ne_cmd_of_isBufferReg (hb x hx)⟩)
    (by rw [hp, List.append_nil]) (runsTo_zero hpost)

theorem applyWrites_keeps_headers {s : State} {ws : List (Reg × Word)} (hb : ∀ x ∈ ws, isBufferReg x.1) :
    (applyWrites ws s).packet = s.packet ∧ (applyWrites ws s).fDst = s.fDst ∧ (applyWrites ws s).fSrc = s.fSrc ∧
      (applyWrites ws s).fType = s.fType := by
  have hk := applyWrites_keeps State.decodedHeaders setReg_keeps_decodedHeaders hb s
  simpa only [State.decodedHeaders, Prod.mk.injEq] using hk

end Sys2Proof.Machine

open Sys2Proof Sys2Proof.Machine

/-- Settles O42: what each write leaves alone, the run of writes leaves alone. -/
theorem decodedValuesAreOwnedCopies : Obligations.DecodedValuesAreOwnedCopies := by
  unfold Obligations.DecodedValuesAreOwnedCopies
  intro s ws h hm hp
  refine ⟨fun hx => ?_, fun hx => runsTo_bufferWrites h hm hx hp (applyWrites_keeps_headers hx)⟩
  have hb : ∀ x ∈ ws, isBufferReg x.1 := fun x hxw => isBufferReg_of_isWireReg (hx x hxw)
  obtain ⟨hpacket, -⟩ := applyWrites_keeps_headers (s := s) hb
  exact runsTo_bufferWrites h hm hb hp ⟨applyWrites_keeps State.frame? setReg_keeps_frame? hx s, hpacket⟩

/-- Settles O6. -/
theorem stepRunsTheDecodedCommand : Obligations.StepRunsTheDecodedCommand := by
  unfold Obligations.StepRunsTheDecodedCommand
  intro w i hi
  refine ⟨fun s es hp => ?_, fun s => ?_⟩
  · rw [step_of_command hp, runCommand_of_decode hi]
  · rw [withFetchWord_of_word, step_of_command (setPending_pending _ _), runCommand_of_decode hi,
      setPending_setPending, setPending_self]

/-- Settles O47. -/
theorem resetSetsEveryScalar : Obligations.ResetSetsEveryScalar := by
  unfold Obligations.ResetSetsEveryScalar
  intro s es hp
  exact ⟨_, step_of_reset hp, rfl, fun r he hw hb => regValue_resetOf (mem_fixedRegs he hw hb)⟩

/-- Settles O48: both buffers are empty lists of cells. -/
theorem resetForgetsTheBuffers : Obligations.ResetForgetsTheBuffers := by
  unfold Obligations.ResetForgetsTheBuffers
  intro s es hp
  refine ⟨_, step_of_reset hp, fun b k => ?_, rfl, rfl, rfl, rfl⟩
  rw [mem_resetOf]
  rfl

end

section
/-! PROOFS. 20_memory.md R66, R67 and R70: the host's events one by one, and the same command twice. -/

namespace Sys2Proof.Machine

/-! ### The next event of the host -/

theorem step_of_idle {s : State} (h : s.port.pending = []) : step s = .next s := by
  simp only [step, hostStep, h]

/-- A step takes the event off the front of the host's list and no other, unless that event is a decision of the
host. -/
theorem pending_of_step {s t : State} {e : HostEvent} {es : List HostEvent} (hp : s.port.pending = e :: es)
    (h : step s = .next t) (he : ∀ m v n, e ≠ .skipUnless m v n) : t.port.pending = es := by
  obtain ⟨hq, -⟩ | ⟨_, _, _, hq, -, rfl⟩ | ⟨_, _, hq, hc⟩ | ⟨_, _, _, _, hq, -, -, rfl⟩ | ⟨_, hq, rfl⟩ |
    ⟨m, v, n, _, _, hq, -⟩ := step_cases h <;> cases hp.symm.trans hq
  · rfl
  · rw [runCommand_port hc, setPending_pending]
  · rw [setReg_port, setPending_pending]
  · rfl
  · exact absurd rfl (he m v n)

/-- The host's decision, once it has read a value, goes on with the next events or leaves out `n` of them. -/
theorem step_of_skipUnless {s : State} {m v a : Word} {n : Nat} {es : List HostEvent} {as : List Word}
    (hp : s.port.pending = .skipUnless m v n :: es) (ha : s.port.answers = a :: as) :
    step s = .next (s.setPending (if a &&& m = v then es else es.drop n)) := by
  simp only [State.setPending, ha]
  split
  · next h => exact step_of_decision hp ha h
  · next h => exact step_of_decision_skip hp ha h

/-! ### The updates of the commands, made twice -/

section
variable (s : State)

@[simp] theorem setResult_setResult (v : Word) : (s.setResult v).setResult v = s.setResult v := rfl

@[simp] theorem setPacket_setPacket (p : ArpPacket) : (s.setPacket p).setPacket p = s.setPacket p := rfl

@[simp] theorem setRequest_setRequest : s.setRequest.setRequest = s.setRequest := rfl

@[simp] theorem setFrame_setFrame (f : EthFrame) : (s.setFrame f).setFrame f = s.setFrame f := by
  simp only [State.setFrame, State.writeBuf, overlay_overlay_self]

@[simp] theorem setRaw_setRaw (bs : List Byte) : (s.setRaw bs).setRaw bs = s.setRaw bs := by
  simp only [State.setRaw, State.writeBuf, overlay_overlay_self]

@[simp] theorem setPayload_setPayload (bs : List Byte) : (s.setPayload bs).setPayload bs = s.setPayload bs := by
  simp only [State.setPayload, State.writeBuf, overlay_overlay_self]

end

/-! ### A command, executed twice -/

/-- `STATUS` is no operand: a command does the same after the end of another. -/
theorem exec_finish (i : Instr) (s : State) (e : ErrCode) (info : BitVec 16) : exec i (s.finish e info) = exec i s :=
  exec_setStatus i s (statusWord e info)

/-- A command executed again where it has left the state leaves it there: a failed one has changed `STATUS` only, and
no update of a successful one writes what its result rests on. -/
theorem exec_again {i : Instr} {s t : State} (h : exec i s = .next t) : exec i t = .next t := by
  -- The updates leave the guards' operands as they were by computation, so each guard at `s` is the guard at `t`:
  -- `by exact` checks that once the rewrite has named the state.
  cases ran_of_exec h with
  | etresSome hr => rw [exec_finish, exec_etres_some (by exact hr), setResult_setResult]
  | etresNone hr => rw [exec_finish, exec_etres_none (by exact hr), setResult_setResult]
  | etwcSome hw => rw [exec_finish, exec_etwc_some (by exact hw), setResult_setResult]
  | ethdecOk hw hd => rw [exec_finish, exec_ethdec_ok (by exact hw) (by exact hd), setFrame_setFrame]
  | ethencOk hf hc => rw [exec_finish, exec_ethenc_ok (by exact hf) (by exact hc), setRaw_setRaw]
  | arpdecOk hp hd => rw [exec_finish, exec_arpdec_ok (by exact hp) (by exact hd), setPacket_setPacket]
  | arpenc => rw [exec_finish, exec_arpenc, setPayload_packet, setPayload_setPayload]
  | arpreq => rw [exec_finish, exec_arpreq, setRequest_setRequest]
  | etwcBad _ | ethdecBad _ | ethdecShort _ _ | ethdecType _ _ _ | ethencBad _ | arpdecBad _ | arpdecShort _ _
  | arpdecLength _ _ _ | arpdecProfile _ _ _ _ _ _ => exact (exec_finish _ _ _ _).trans h

end Sys2Proof.Machine

open Sys2Proof Sys2Proof.Machine

/-- Settles O31: what is no command overwrites `STATUS` with the same code again. -/
theorem commandsAreIdempotent : Obligations.CommandsAreIdempotent := by
  unfold Obligations.CommandsAreIdempotent
  intro w s t h
  cases hd : decode w with
  | ok i =>
    rw [runCommand_of_decode hd] at h ⊢
    exact exec_again h
  | error e =>
    obtain ⟨i, hi, -⟩ | ⟨-, rfl⟩ := runCommand_cases h
    · cases hd.symm.trans hi
    · exact (statusIsNotSticky w _ s).trans h

/-- Settles O7. -/
theorem oneEventPerStep : Obligations.OneEventPerStep := by
  unfold Obligations.OneEventPerStep
  exact ⟨fun _ => step_of_idle, fun _ _ _ _ => pending_of_step, fun _ _ _ _ _ _ _ => step_of_skipUnless⟩

end

section
/-! PROOFS. 30_encoding.md R92 to R94 and R97: the command word, the opcode table and the script lines. -/

namespace Sys2Proof.Laws
open Sys2Proof

/-! ### Words and commands -/

/-- A word and its fields determine each other. -/
theorem fieldsOf_eq_iff {w : Word} {f : CmdFields} : fieldsOf w = f ↔ w = wordOf f := by
  constructor
  · rintro rfl
    exact (wordOf_fieldsOf w).symm
  · rintro rfl
    exact fieldsOf_wordOf f

theorem decode_ok_iff_encode (w : Word) (i : Instr) : decode w = .ok i ↔ w = encode i := by
  rw [decode_ok_iff_fields, fieldsOf_eq_iff, encode]

@[simp] theorem decode_encode (i : Instr) : decode (encode i) = .ok i := (decode_ok_iff_encode _ i).mpr rfl

/-- The word of fields with `ZERO = 0`, as the sum of R97. -/
theorem wordOf_zero_eq (op : Byte) (imm : BitVec 16) :
    wordOf ⟨op, 0, imm⟩ = BitVec.ofNat 32 (imm.toNat * 65536 + op.toNat) := by
  have hop := op.isLt
  have himm := imm.isLt
  have hlow : ((0 : Byte) ++ op).toNat = 0 * 2 ^ 8 + op.toNat := append_toNat 0 op
  apply BitVec.eq_of_toNat_eq
  rw [wordOf, append_toNat imm ((0 : Byte) ++ op), hlow, BitVec.toNat_ofNat]
  omega

/-! ### The opcode table -/

/-- Each command's word is taken by its own row alone. -/
theorem rowsTaking_encode (i : Instr) : TableRow.rowsTaking (encode i) = [i.mnemonic] := by
  cases i with
  | etres code => exact (TableRow.etres code).2
  | etwc id => exact (TableRow.etwc id).2
  | ethdec => exact TableRow.ethdec.2
  | ethenc => exact TableRow.ethenc.2
  | arpdec => exact TableRow.arpdec.2
  | arpenc => exact TableRow.arpenc.2
  | arpreq => exact TableRow.arpreq.2

theorem mem_rowsTaking {w : Word} {name : String} :
    name ∈ TableRow.rowsTaking w ↔ ∃ r ∈ opcodeTable, r.mnemonic = name ∧ r.takes w = true := by
  simp only [TableRow.rowsTaking, List.mem_map, List.mem_filter]
  exact exists_congr fun r => by tauto

/-- A row of format I takes the words of its opcode's command only. -/
theorem eq_encode_of_and_ffff {w m : Word} {n : Nat} {i : Instr} (h : (w &&& 0x0000FFFF == m) = true) (hn : n < 256)
    (hm : m = BitVec.ofNat 32 n) (hi : i.fields = ⟨BitVec.ofNat 8 n, 0, (fieldsOf w).imm⟩) : w = encode i := by
  obtain ⟨hz, hop⟩ := (and_ffff_eq hn hm).mp h
  rw [encode, ← fieldsOf_eq_iff, hi, ← hz, ← hop]

/-- A row takes the words of one command only, the one it names. -/
theorem exists_encode_of_takes {r : OpcodeRow} {w : Word} (hr : r ∈ opcodeTable) (h : r.takes w = true) :
    ∃ i : Instr, w = encode i ∧ i.mnemonic = r.mnemonic := by
  simp only [opcodeTable, List.mem_cons, List.not_mem_nil, or_false] at hr
  obtain rfl | rfl | rfl | rfl | rfl | rfl | rfl := hr
  · exact ⟨.etres (fieldsOf w).imm, eq_encode_of_and_ffff (n := 1) h (by omega) rfl rfl, rfl⟩
  · exact ⟨.etwc (fieldsOf w).imm, eq_encode_of_and_ffff (n := 2) h (by omega) rfl rfl, rfl⟩
  · exact ⟨.ethdec, and_ones_eq.mp h, rfl⟩
  · exact ⟨.ethenc, and_ones_eq.mp h, rfl⟩
  · exact ⟨.arpdec, and_ones_eq.mp h, rfl⟩
  · exact ⟨.arpenc, and_ones_eq.mp h, rfl⟩
  · exact ⟨.arpreq, and_ones_eq.mp h, rfl⟩

/-- A mnemonic names one row. -/
theorem row_eq_of_mnemonic_eq : ∀ r ∈ opcodeTable, ∀ r' ∈ opcodeTable, r.mnemonic = r'.mnemonic → r = r' := by
  decide

end Sys2Proof.Laws

open Sys2Proof Sys2Proof.Machine

/-- Settles O1: the decoder accepts a word by its fields, and the three fields are the whole word. -/
theorem decodeInvertsEncode : Obligations.DecodeInvertsEncode := by
  unfold Obligations.DecodeInvertsEncode
  exact Laws.decode_ok_iff_encode

/-- Settles O2: a row takes only words of the command it names, and such a word is taken by that row alone. -/
theorem tableDecoderAgrees : Obligations.TableDecoderAgrees := by
  unfold Obligations.TableDecoderAgrees
  refine ⟨fun w name => ⟨?_, ?_⟩, fun w r hr r' hr' h h' => ?_⟩
  · rintro ⟨i, hi, rfl⟩
    obtain rfl := (Laws.decode_ok_iff_encode w i).mp hi
    rw [← Laws.mem_rowsTaking, Laws.rowsTaking_encode]
    exact List.mem_singleton_self _
  · rintro ⟨r, hr, rfl, h⟩
    obtain ⟨i, rfl, hi⟩ := Laws.exists_encode_of_takes hr h
    exact ⟨i, Laws.decode_encode i, hi⟩
  · obtain ⟨i, rfl, -⟩ := Laws.exists_encode_of_takes hr h
    have only : ∀ q ∈ opcodeTable, q.takes (encode i) = true → q.mnemonic = i.mnemonic := fun q hq ht => by
      rw [← List.mem_singleton, ← Laws.rowsTaking_encode, Laws.mem_rowsTaking]
      exact ⟨q, hq, rfl, ht⟩
    exact Laws.row_eq_of_mnemonic_eq r hr r' hr' ((only r hr h).trans (only r' hr' h').symm)

/-- Settles O3: the two commands with an immediate by the sum of their fields. -/
theorem scriptLinesEncodeAsListed : Obligations.ScriptLinesEncodeAsListed := by
  unfold Obligations.ScriptLinesEncodeAsListed
  exact ⟨fun code => congrArg _ (Laws.wordOf_zero_eq 0x01 code), fun id => congrArg _ (Laws.wordOf_zero_eq 0x02 id),
    by decide, by decide, by decide, by decide, by decide, fun _ _ => rfl, fun _ => rfl⟩

/-- Settles O4. -/
theorem sampleWordsDecode : Obligations.SampleWordsDecode := by
  unfold Obligations.SampleWordsDecode
  decide

end

section
/-! PROOFS. 30_encoding.md R94 and 10_state.md R34: what a command leaves unchanged. -/

namespace Sys2Proof.Machine

/-- Neither lookup changes a register outside its "writes" column, which is `RESULT`. -/
theorem unchangedExcept_setResult {w : Reg → Bool} {s : State} {v : Word} (hw : w .result = true) :
    unchangedExcept (orStatus w) s ((s.setResult v).finish .ok 0) :=
  unchangedExcept_finish_of (fun r hr => setResult_frame r (by rintro rfl; simp [hw] at hr)) rfl rfl rfl rfl

/-- A command changes `STATUS` and, when it succeeds, its "writes" column. -/
theorem ran_frame {i : Instr} {s t : State} (h : Ran i s t) : unchangedExcept (orStatus (writesReg i s)) s t := by
  cases h with
  | etresSome _ | etresNone _ | etwcSome _ => exact unchangedExcept_setResult rfl
  | ethdecOk _ hd => exact unchangedExcept_finish_of (setFrame_frame (length_payload_of_ethDecode hd)) rfl rfl rfl rfl
  | ethencOk hf _ =>
    obtain ⟨-, -, rfl⟩ := frame?_eq_some.mp hf
    exact unchangedExcept_finish_of (setRaw_frame (by simp [length_frameBytes])) rfl rfl rfl rfl
  | arpdecOk _ _ => exact unchangedExcept_finish_of setPacket_frame rfl rfl rfl rfl
  | arpenc => exact unchangedExcept_finish_of (setPayload_frame (length_arpEncode _)) rfl rfl rfl rfl
  | arpreq => exact unchangedExcept_finish_of setRequest_frame rfl rfl rfl rfl
  | etwcBad _ | ethdecBad _ | ethdecShort _ _ | ethdecType _ _ _ | ethencBad _ | arpdecBad _ | arpdecShort _ _
  | arpdecLength _ _ _ | arpdecProfile _ _ _ _ _ _ => exact unchangedExcept_finish _ _ _ _

end Sys2Proof.Machine

open Sys2Proof Sys2Proof.Machine

/-- Settles O26, by everything a command can do. -/
theorem commandsWriteTheirColumnOnly : Obligations.CommandsWriteTheirColumnOnly := by
  unfold Obligations.CommandsWriteTheirColumnOnly
  exact fun i s t h => ran_frame (ran_of_exec h)

end

section
/-! PROOFS. 30_encoding.md R97 and R98: one step per script line, and what the pseudo-commands leave. -/

namespace Sys2Proof.Machine

/-! ### One step per script line -/

section
variable {n : Nat} {s : State} {post : State → Prop} {ls : List Line}

theorem runsTo_cmd {i : Instr} {t : State} (hp : s.port.pending = encodeScript (.cmd i :: ls))
    (he : exec i (s.setPending (encodeScript ls)) = .next t) (ht : runsTo n t post) : runsTo (n + 1) s post :=
  runsTo_succ ((step_of_command hp).trans ((runCommand_of_decode (Laws.decode_encode i) _).trans he)) ht

theorem runsTo_rd {r : Reg} {v : Word} (hp : s.port.pending = encodeScript (.rd r :: ls))
    (hr : s.regAt (regAddr r) = some r) (hv : s.regValue r = v)
    (ht : runsTo n (s.setPort { pending := encodeScript ls, answers := v :: s.port.answers }) post) :
    runsTo (n + 1) s post :=
  runsTo_succ (step_of_read hp hr hv) ht

/-- The host decides to go on. -/
theorem runsTo_skipUnless_holds {m v a : Word} {k : Nat} {as : List Word}
    (hp : s.port.pending = encodeScript (.skipUnless m v k :: ls)) (ha : s.port.answers = a :: as) (h : a &&& m = v)
    (ht : runsTo n (s.setPort { pending := encodeScript ls, answers := a :: as }) post) : runsTo (n + 1) s post :=
  runsTo_succ (step_of_decision hp ha h) ht

/-- The host decides to leave out the next `k` lines. -/
theorem runsTo_skipUnless_fails {m v a : Word} {k : Nat} {as : List Word}
    (hp : s.port.pending = encodeScript (.skipUnless m v k :: ls)) (ha : s.port.answers = a :: as) (h : a &&& m ≠ v)
    (ht : runsTo n (s.setPort { pending := encodeScript (ls.drop k), answers := a :: as }) post) :
    runsTo (n + 1) s post := by
  refine runsTo_succ (step_of_decision_skip hp ha h) ?_
  rw [← List.map_drop]
  exact ht

end

@[simp] theorem regAt_status (s : State) : s.regAt (regAddr .status) = some .status := rfl

@[simp] theorem regAt_fType (s : State) : s.regAt (regAddr .fType) = some .fType := rfl

/-! ### Runs of byte writes -/

/-- The register writes of `WRB arr, bs`. -/
def wrbWrites (arr : List Reg) (bs : List Byte) : List (Reg × Word) :=
  List.zipWith (fun r b => (r, b.setWidth 32)) arr bs

theorem encodeScript_append (ls ls' : List Line) : encodeScript (ls ++ ls') = encodeScript ls ++ encodeScript ls' :=
  List.map_append

theorem encodeScript_wrb (arr : List Reg) (bs : List Byte) :
    encodeScript (wrb arr bs) = (wrbWrites arr bs).map (fun x => .write (regAddr x.1) x.2) := by
  simp only [encodeScript, wrb, wrbWrites, List.map_zipWith]
  rfl

theorem mem_of_mem_wrbWrites {arr : List Reg} {bs : List Byte} {x : Reg × Word} (h : x ∈ wrbWrites arr bs) :
    x.1 ∈ arr := by
  rw [wrbWrites, ← List.map_uncurry_zip_eq_zipWith] at h
  obtain ⟨⟨r, b⟩, hz, rfl⟩ := List.mem_map.mp h
  exact (List.of_mem_zip hz).1

/-! ### `LDWIRE` -/

/-- The register writes of `LDWIRE bs`. -/
def ldwireWrites (bs : List Byte) : List (Reg × Word) :=
  wrbWrites ((List.range bs.length).map .wbuf) bs ++ [(.wlen, BitVec.ofNat 32 bs.length)]

theorem encodeScript_ldwire (bs : List Byte) :
    encodeScript (ldwire bs) = (ldwireWrites bs).map (fun x => .write (regAddr x.1) x.2) := by
  rw [ldwire, encodeScript_append, encodeScript_wrb, ldwireWrites, List.map_append]
  rfl

@[simp] theorem length_ldwireWrites (bs : List Byte) : (ldwireWrites bs).length = bs.length + 1 := by
  simp [ldwireWrites, wrbWrites]

theorem mem_ldwireWrites {bs : List Byte} {x : Reg × Word} (h : x ∈ ldwireWrites bs) :
    x.1 = .wlen ∨ ∃ k < bs.length, x.1 = .wbuf k := by
  obtain h | h := List.mem_append.mp h
  · obtain ⟨k, hk, hx⟩ := List.mem_map.mp (mem_of_mem_wrbWrites h)
    exact .inr ⟨k, List.mem_range.mp hk, hx.symm⟩
  · obtain rfl := List.mem_singleton.mp h
    exact .inl rfl

/-- `LDWIRE` writes registers of the wire buffer only. -/
theorem isWireReg_of_mem_ldwireWrites {bs : List Byte} {x : Reg × Word} (h : x ∈ ldwireWrites bs) :
    isWireReg x.1 := by
  obtain h | ⟨k, -, h⟩ := mem_ldwireWrites h
  · exact .inl h
  · exact .inr ⟨k, h⟩

/-- The block has every register that `LDWIRE` writes, when the buffer fits. -/
theorem maps_of_mem_ldwireWrites {s : State} {bs : List Byte} (hb : bs.length ≤ s.cfg.wbufBytes) {x : Reg × Word}
    (h : x ∈ ldwireWrites bs) : s.maps x.1 = true := by
  obtain h | ⟨k, hk, h⟩ := mem_ldwireWrites h <;> rw [h]
  · rfl
  · exact decide_eq_true (Nat.lt_of_lt_of_le hk hb)

theorem applyWrites_ldwireWrites (bs : List Byte) (s : State) :
    applyWrites (ldwireWrites bs) s =
      (applyWrites (wrbWrites ((List.range bs.length).map .wbuf) bs) s).setReg .wlen (BitVec.ofNat 32 bs.length) :=
  applyWrites_append _ _ s

theorem bufBytes_applyWrites_ldwireWrites (bs : List Byte) (s : State) :
    (applyWrites (ldwireWrites bs) s).bufBytes .wire bs.length = bs := by
  apply List.ext_getElem?
  intro k
  rcases Nat.lt_or_ge k bs.length with hk | hk
  · have hbyte := applyWrites_wbuf bs 0 k s
    rw [if_pos (by omega), ← List.range_eq_range'] at hbyte
    rw [getElem?_bufBytes _ _ hk, getElem?_eq_some_byteAt hk, applyWrites_ldwireWrites]
    exact congrArg some hbyte
  · rw [List.getElem?_eq_none (by simpa using hk), List.getElem?_eq_none hk]

/-! ### `NEWREQ` -/

/-- The register writes of `NEWREQ sha, tha, spa, tpa`. -/
def newreqWrites (sha tha : Mac) (spa tpa : Ipv4) : List (Reg × Word) :=
  wrbWrites (macIndices.map Reg.aSha) (macBytes sha) ++ (wrbWrites (macIndices.map Reg.aTha) (macBytes tha) ++
    (wrbWrites (ipv4Indices.map Reg.aSpa) (ipv4Bytes spa) ++ wrbWrites (ipv4Indices.map Reg.aTpa) (ipv4Bytes tpa)))

theorem encodeScript_newreq (sha tha : Mac) (spa tpa : Ipv4) :
    encodeScript (newreq sha tha spa tpa) =
      (newreqWrites sha tha spa tpa).map (fun x => .write (regAddr x.1) x.2) ++ encodeScript [.cmd .arpreq] := rfl

/-- `NEWREQ` writes registers that every block has, before its command. -/
theorem maps_of_mem_newreqWrites {s : State} {sha tha : Mac} {spa tpa : Ipv4} {x : Reg × Word}
    (h : x ∈ newreqWrites sha tha spa tpa) : s.maps x.1 = true ∧ x.1 ≠ .cmd := by
  simp only [newreqWrites, List.mem_append] at h
  obtain h | h | h | h := h
  all_goals
    obtain ⟨j, -, hx⟩ := List.mem_map.mp (mem_of_mem_wrbWrites h)
    rw [← hx]
    exact ⟨rfl, by simp⟩

/-- Each address is written element by element, so nothing of what its array held is left. -/
theorem packet_applyWrites_newreqWrites (sha tha : Mac) (spa tpa : Ipv4) (s : State) :
    (applyWrites (newreqWrites sha tha spa tpa) s).packet =
      { s.packet with sha := sha, tha := tha, spa := spa, tpa := tpa } := by
  have hb (b : Byte) : (b.setWidth 32).setWidth 8 = b := by simp
  simp only [newreqWrites, applyWrites_append, wrbWrites, macIndices, ipv4Indices, macBytes, ipv4Bytes, List.map_cons,
    List.map_nil, List.zipWith_cons_cons, List.zipWith_nil_left, applyWrites_cons, applyWrites_nil, State.setReg, hb]
  rfl

/-- ARPREQ builds its request around the packet's own addresses. -/
theorem setRequest_packet_eq (s : State) :
    s.setRequest.packet = arpNewRequest s.packet.sha s.packet.tha s.packet.spa s.packet.tpa := rfl

/-! ### What the host decides on, and the commands that fail -/

/-- The host's test of `STATUS.ERR`. -/
theorem statusWord_and_f_eq_zero_iff (e : ErrCode) (info : BitVec 16) :
    statusWord e info &&& 0x0000000F = 0 ↔ errBits e = 0 := by
  have hm : (statusWord e info &&& 0x0000000F).toNat = (statusWord e info).toNat % 16 := by
    rw [BitVec.toNat_and]
    exact Nat.and_two_pow_sub_one_eq_mod _ 4
  have he : ((statusWord e info).extractLsb' 0 4).toNat = (statusWord e info).toNat % 16 :=
    BitVec.extractLsb'_toNat 0 4 _
  rw [← statusWord_err e info, ← BitVec.toNat_inj, ← BitVec.toNat_inj, hm, he]
  rfl

/-- The host's test of `F_TYPE`. -/
theorem setWidth_and_ones_eq_one_iff (id : EtherTypeId) : id.setWidth 32 &&& 0xFFFFFFFF = (1 : Word) ↔ id = 1 := by
  have hm : id.setWidth 32 &&& 0xFFFFFFFF = id.setWidth 32 := BitVec.and_allOnes
  rw [hm]
  exact ⟨fun h => eq_of_setWidth_eq h, fun h => by rw [h]; rfl⟩

/-- A frame decoder that does not succeed ends ETHDEC with a nonzero code and nothing else. -/
theorem exec_ethdec_fails {s : State}
    (h : ∀ f, s.wlen.toNat ≤ s.cfg.wbufBytes → ethDecode s.et (s.bufBytes .wire s.wlen.toNat) ≠ .ok f) :
    ∃ e info, errBits e ≠ 0 ∧ exec .ethdec s = .next (s.finish e info) := by
  obtain ⟨t, ht, hr⟩ := exec_ran .ethdec s
  cases hr with
  | ethdecOk hw hd => exact absurd hd (h _ hw)
  | ethdecBad _ | ethdecShort _ _ | ethdecType _ _ _ => exact ⟨_, _, by decide, ht⟩

/-- A packet decoder that does not succeed ends ARPDEC with a nonzero code and nothing else. -/
theorem exec_arpdec_fails {s : State}
    (h : ∀ p, arpDecode s.cfg.arpStrictTypes (s.bufBytes .payload s.plen.toNat) ≠ .ok p) :
    ∃ e info, errBits e ≠ 0 ∧ exec .arpdec s = .next (s.finish e info) := by
  obtain ⟨t, ht, hr⟩ := exec_ran .arpdec s
  cases hr with
  | arpdecOk _ hd => exact absurd hd (h _)
  | arpdecBad _ | arpdecShort _ _ | arpdecLength _ _ _ | arpdecProfile _ _ _ _ _ _ => exact ⟨_, _, by decide, ht⟩

/-! ### Frames and packets of the two paths -/

/-- Decoding the bytes of a frame whose type is registered. -/
theorem ethDecode_frameBytes {et : List Code} {f : EthFrame} {code : Code} (hn : et.Nodup)
    (hc : wireCodeOf et f.type = some code) : ethDecode et (frameBytes f code) = .ok f :=
  ethDecode_eq_ok.mpr ⟨by rw [length_frameBytes]; omega, by rw [be16_frameBytes]; exact resolve_of_wireCodeOf hn hc,
    rfl, rfl, rfl⟩

/-- Decoding a profile-valid packet, on a strict block too and whatever follows it. -/
theorem arpDecode_arpEncode_append {strict : Bool} {p : ArpPacket} (h : profileValid p) (tail : List Byte) :
    arpDecode strict (arpEncode p ++ tail) = .ok p := by
  obtain ⟨hh, hp, hhl, hpl⟩ := h
  refine arpDecode_eq_ok.mpr ⟨by simp, hhl, hpl, fun _ => ⟨?_, ?_⟩, (fields_arpEncode p tail).symm⟩
  · exact (hi_append_lo p.htype).trans hh
  · exact (hi_append_lo p.ptype).trans hp

/-- The register file has distinct entries, no more than there are ids, and ARP as entry 1. -/
theorem registry_of_inv {s : State} (h : s.Inv) :
    s.et.Nodup ∧ s.et.length ≤ 65536 ∧ wireCodeOf s.et 1 = some 0x0806 := by
  obtain ⟨-, hl, hn, -, h1, -⟩ := h.cfgOk
  rw [h.etLoaded]
  exact ⟨hn, Nat.le_trans hl (by decide), h1⟩

/-- After a successful ETHDEC the registers hold the frame. -/
theorem setFrame_frame? {s : State} {f : EthFrame} (hl : s.et.length ≤ 65536) (hw : s.wlen.toNat ≤ s.cfg.wbufBytes)
    (hd : ethDecode s.et (s.bufBytes .wire s.wlen.toNat) = .ok f) :
    (s.setFrame f).frame? = some f := by
  obtain ⟨h14, hr, -⟩ := ethDecode_eq_ok.mp hd
  rw [length_bufBytes] at h14
  obtain ⟨ht, -⟩ := wireCodeOf_eq_some.mp (wireCodeOf_of_resolve hl hr)
  have hp : (s.setFrame f).plen.toNat = f.payload.length := by
    rw [setFrame_plen, length_payload_of_ethDecode hd, BitVec.toNat_sub_of_le h14]
    rfl
  refine frame?_eq_some.mpr ⟨?_, ht, ?_⟩
  · rw [hp, length_payload_of_ethDecode hd, setFrame_cfg]
    simp only [Config.pbufBytes]
    omega
  · rw [hp, setFrame_bufBytes]
    rfl

/-- After ARPENC the registers hold a frame around the packet, for each registered type. -/
theorem setPayload_frame? {s : State} (h : s.Inv) (ht : s.fType.toNat < s.et.length) (p : ArpPacket) :
    (s.setPayload (arpEncode p)).frame? = some ⟨s.fDst, s.fSrc, s.fType, arpEncode p⟩ :=
  frame?_eq_some.mpr ⟨(capacities_of_inv h).1, ht,
    congrArg (EthFrame.mk s.fDst s.fSrc s.fType) (setPayload_bufBytes s (arpEncode p)).symm⟩

/-! ### `RXARP` -/

/-- The block after a successful ETHDEC, with a given host's side of the port. -/
def State.received (s : State) (f : EthFrame) (p : Port) : State := ((s.setFrame f).finish .ok 0).setPort p

/-- The host's side of the port when RXARP comes to ARPDEC. -/
def State.portAtArpdec (s : State) : Port :=
  { pending := encodeScript [.rd .status], answers := 1 :: 0 :: s.port.answers }

@[simp] theorem received_cfg (s : State) (f : EthFrame) (p : Port) : (s.received f p).cfg = s.cfg := rfl

@[simp] theorem received_err (s : State) (f : EthFrame) (p : Port) : (s.received f p).err = 0 :=
  finish_err (s.setFrame f) .ok 0

section
variable {s : State} {f : EthFrame} {post : State → Prop} (hw : s.wlen.toNat ≤ s.cfg.wbufBytes)
  (hd : ethDecode s.et (s.bufBytes .wire s.wlen.toNat) = .ok f)
include hw hd

theorem received_frame? (hl : s.et.length ≤ 65536) (p : Port) : (s.received f p).frame? = some f :=
  setFrame_frame? hl hw hd

/-- What ARPDEC decodes after a successful ETHDEC: a payload that fits, the frame's. -/
theorem received_arpDecode (hl : s.et.length ≤ 65536) (p : Port) :
    (s.received f p).plen.toNat ≤ (s.received f p).cfg.pbufBytes ∧
      arpDecode (s.received f p).cfg.arpStrictTypes
        ((s.received f p).bufBytes .payload (s.received f p).plen.toNat) =
      arpDecode s.cfg.arpStrictTypes f.payload := by
  obtain ⟨hp, -, hf⟩ := frame?_eq_some.mp (received_frame? hw hd hl p)
  have hpay : f.payload = (s.received f p).bufBytes .payload (s.received f p).plen.toNat :=
    congrArg EthFrame.payload hf
  exact ⟨hp, by rw [← hpay, received_cfg]⟩

/-- RXARP up to the decision on `F_TYPE`: the frame is in the registers and the host has read 0 and the type. -/
theorem runsTo_rxarp_header {n : Nat} (hp : s.port.pending = encodeScript rxarp)
    (h : runsTo n (s.received f { pending := encodeScript [.skipUnless 0xFFFFFFFF 1 2, .cmd .arpdec, .rd .status],
                                  answers := f.type.setWidth 32 :: 0 :: s.port.answers }) post) :
    runsTo (n + 4) s post := by
  refine runsTo_cmd hp (exec_ethdec_ok hw hd) ?_
  refine runsTo_rd (v := 0) rfl (regAt_status _) rfl ?_
  refine runsTo_skipUnless_holds rfl rfl rfl ?_
  exact runsTo_rd rfl (regAt_fType _) rfl h

/-- RXARP on a frame of type ARP: ARPDEC, at the registers that hold the frame, and a read of its `STATUS`. -/
theorem runsTo_rxarp_arp {t : State} (hp : s.port.pending = encodeScript rxarp) (ht : f.type = 1)
    (he : exec .arpdec (s.received f s.portAtArpdec) = .next t)
    (h : post (t.setPort { pending := [], answers := t.status :: t.port.answers })) : runsTo 7 s post := by
  refine runsTo_rxarp_header hw hd hp ?_
  rw [ht]
  refine runsTo_skipUnless_holds rfl rfl rfl ?_
  refine runsTo_cmd rfl he ?_
  have hport := ran_port (ran_of_exec he)
  exact runsTo_rd (ls := []) (v := t.status) (by rw [hport]; rfl) (regAt_status t) rfl (runsTo_zero h)

/-- RXARP on a frame of another type: the host stops after reading it. -/
theorem runsTo_rxarp_other (hp : s.port.pending = encodeScript rxarp) (ht : f.type ≠ 1)
    (h : post (s.received f { pending := [], answers := f.type.setWidth 32 :: 0 :: s.port.answers })) :
    runsTo 5 s post := by
  refine runsTo_rxarp_header hw hd hp ?_
  exact runsTo_skipUnless_fails rfl rfl (fun he => ht ((setWidth_and_ones_eq_one_iff _).mp he)) (runsTo_zero h)

end

/-- RXARP when ETHDEC fails: the host stops after reading `STATUS`. -/
theorem runsTo_rxarp_fails {s : State} {e : ErrCode} {info : BitVec 16} {post : State → Prop}
    (hp : s.port.pending = encodeScript rxarp) (he : errBits e ≠ 0)
    (hx : exec .ethdec (s.setPending (encodeScript rxarp.tail)) =
      .next ((s.setPending (encodeScript rxarp.tail)).finish e info))
    (h : post ((s.finish e info).setPort { pending := [], answers := statusWord e info :: s.port.answers })) :
    runsTo 3 s post := by
  refine runsTo_cmd hp hx ?_
  refine runsTo_rd (v := statusWord e info) rfl (regAt_status _) rfl ?_
  exact runsTo_skipUnless_fails rfl rfl (fun h0 => he ((statusWord_and_f_eq_zero_iff e info).mp h0)) (runsTo_zero h)

end Sys2Proof.Machine

open Sys2Proof Sys2Proof.Machine

/-- Settles O43: the writes of `LDWIRE` touch the wire buffer only, each byte at its own index. -/
theorem loadWireHandsOverTheBuffer : Obligations.LoadWireHandsOverTheBuffer := by
  unfold Obligations.LoadWireHandsOverTheBuffer
  intro s b h hb hp
  have hwire : ∀ x ∈ ldwireWrites b, isWireReg x.1 := fun x => isWireReg_of_mem_ldwireWrites
  have hbuf : ∀ x ∈ ldwireWrites b, isBufferReg x.1 := fun x hx => isBufferReg_of_isWireReg (hwire x hx)
  have hlen : b.length < 2 ^ 32 := by
    have := (bounds_of_inv h).2
    omega
  obtain ⟨hpacket, -⟩ := applyWrites_keeps_headers (s := s) hbuf
  rw [← length_ldwireWrites]
  refine runsTo_bufferWrites h (fun x => maps_of_mem_ldwireWrites hb) hbuf (hp.trans (encodeScript_ldwire b))
    ⟨?_, ?_, ?_, hpacket, ?_, rfl⟩
  · rw [setPending_bufBytes, bufBytes_applyWrites_ldwireWrites]
  · rw [setPending_wlen, applyWrites_ldwireWrites]
    exact (BitVec.toNat_ofNat _ _).trans (Nat.mod_eq_of_lt hlen)
  · rw [setPending_frame?, applyWrites_keeps State.frame? setReg_keeps_frame? hwire]
  · exact applyWrites_keeps State.status (fun s r v _ => setReg_status s r v) hbuf s

/-- Settles O44: the four addresses are written, and ARPREQ makes them a request. -/
theorem newRequestScriptBuildsTheRequest : Obligations.NewRequestScriptBuildsTheRequest := by
  unfold Obligations.NewRequestScriptBuildsTheRequest
  intro s sha tha spa tpa h hp
  obtain ⟨hn, hw⟩ := bounds_of_inv h
  refine runsTo_writes (ws := newreqWrites sha tha spa tpa) (n := 1) hn hw (fun x => maps_of_mem_newreqWrites)
    (hp.trans (encodeScript_newreq sha tha spa tpa)) ?_
  refine runsTo_cmd rfl (exec_arpreq _) (runsTo_zero ⟨?_, finish_err _ _ _, rfl⟩)
  rw [finish_packet, setRequest_packet_eq, setPending_packet, setPending_packet, packet_applyWrites_newreqWrites]

/-- Settles O45: ARPENC leaves a payload of 28 bytes, so the registers hold a frame for ETHENC. -/
theorem transmitPathFramesThePacket : Obligations.TransmitPathFramesThePacket := by
  unfold Obligations.TransmitPathFramesThePacket
  intro s code h hc hp
  obtain ⟨ht, -⟩ := List.getElem?_eq_some_iff.mp hc
  have hf := setPayload_frame? h ht s.packet
  refine runsTo_cmd hp (exec_arpenc _) ?_
  refine runsTo_cmd rfl (exec_ethenc_ok (code := code) hf hc) ?_
  refine runsTo_rd (v := 0) rfl (regAt_status _) rfl (runsTo_zero ⟨rfl, ?_, rfl⟩)
  have hbytes : frameBytes ⟨s.fDst, s.fSrc, s.fType, arpEncode s.packet⟩ code =
      macBytes s.fDst ++ macBytes s.fSrc ++ be16bytes code ++ arpEncode s.packet := by
    simp only [frameBytes, List.append_assoc]
  rw [setPort_bufBytes, finish_bufBytes, ← hbytes]
  exact setRaw_bufBytes _ _

/-- Settles O46: the frame decodes to the packet's encoding and the tail, and ARPDEC ignores the tail. -/
theorem receivePathDeliversThePacket : Obligations.ReceivePathDeliversThePacket := by
  unfold Obligations.ReceivePathDeliversThePacket
  intro s dst src p tail h hv hcap hlen hb hp
  obtain ⟨hn, hl, h1⟩ := registry_of_inv h
  have hw : s.wlen.toNat ≤ s.cfg.wbufBytes := hlen ▸ hcap
  have hbytes : s.bufBytes .wire s.wlen.toNat = frameBytes ⟨dst, src, 1, arpEncode p ++ tail⟩ 0x0806 := by
    rw [hlen, hb]
    simp [frameBytes, be16bytes]
  have hd := hbytes ▸ ethDecode_frameBytes (f := ⟨dst, src, 1, arpEncode p ++ tail⟩) hn h1
  obtain ⟨hfit, harp⟩ := received_arpDecode hw hd hl s.portAtArpdec
  exact runsTo_rxarp_arp hw hd hp rfl (exec_arpdec_ok hfit (harp.trans (arpDecode_arpEncode_append hv tail)))
    ⟨rfl, rfl, rfl, rfl, rfl⟩

/-- Settles O54, by the decoder that fails and the type. -/
theorem receivePathStopsWhereItFails : Obligations.ReceivePathStopsWhereItFails := by
  unfold Obligations.ReceivePathStopsWhereItFails
  intro s h hp
  obtain ⟨-, hl, -⟩ := registry_of_inv h
  refine ⟨fun hf => ?_, fun f hw hd => ⟨fun ht => ?_, fun ht ha => ?_⟩⟩
  · obtain ⟨e, info, he, hx⟩ := exec_ethdec_fails (s := s.setPending (encodeScript rxarp.tail)) hf
    exact runsTo_rxarp_fails hp he hx ⟨(finish_err s e info).trans_ne he, rfl, rfl, rfl, rfl⟩
  · exact runsTo_rxarp_other hw hd hp ht ⟨received_err _ _ _, received_frame? hw hd hl _, rfl, rfl, rfl⟩
  · obtain ⟨-, harp⟩ := received_arpDecode hw hd hl s.portAtArpdec
    obtain ⟨e, info, he, hx⟩ := exec_arpdec_fails (s := s.received f s.portAtArpdec) fun p => harp.trans_ne (ha p)
    have herr := (finish_err (s.received f s.portAtArpdec) e info).trans_ne he
    refine runsTo_rxarp_arp hw hd hp ht hx ⟨herr, ?_, rfl, rfl, rfl⟩
    rw [setPort_frame?, finish_frame?, received_frame? hw hd hl]

end

section
/-! PROOFS. 40_etype_registry.md R110 to R114: the two lookups as functions of a register file and as commands. -/

namespace Sys2Proof.Machine

/-! ### The lookups -/

/-- Over distinct entries the two lookups are inverse to each other. -/
theorem resolve_eq_some_iff {et : List Code} {code : Code} {id : EtherTypeId} (hn : et.Nodup)
    (hl : et.length ≤ 65536) : resolve et code = some id ↔ wireCodeOf et id = some code :=
  ⟨wireCodeOf_of_resolve hl, resolve_of_wireCodeOf hn⟩

theorem exists_wireCodeOf_iff {et : List Code} {id : EtherTypeId} :
    (∃ code, wireCodeOf et id = some code) ↔ id.toNat < et.length :=
  ⟨fun ⟨_, hc⟩ => (wireCodeOf_eq_some.mp hc).1, fun h => ⟨_, wireCodeOf_eq_some.mpr ⟨h, rfl⟩⟩⟩

/-! ### The command word -/

/-- The number of a format I word: the immediate and the opcode fit in 32 bits, so nothing is lost. -/
theorem wordOf_zero_toNat (op : Byte) (imm : BitVec 16) :
    (wordOf ⟨op, 0, imm⟩).toNat = imm.toNat * 65536 + op.toNat := by
  have hop := op.isLt
  have himm := imm.isLt
  rw [Laws.wordOf_zero_eq, BitVec.toNat_ofNat, Nat.mod_eq_of_lt (by omega)]

/-! ### How a lookup ends -/

/-- A command that answers `v` completes, changing `RESULT` and `STATUS` only. -/
theorem ends_setResult {o : Host.Outcome State Fault Refusal} {s : State} {v : Word} {post : State → Prop}
    (ho : o = .next ((s.setResult v).finish .ok 0)) (hp : post ((s.setResult v).finish .ok 0)) :
    ends o s 0 0 (· == .result) post :=
  ⟨_, ho, rfl, unchangedExcept_setResult (beq_self_eq_true Reg.result), hp⟩

/-- The fields of `RESULT` after a lookup that found `v`. -/
theorem found_valid (s : State) (v : BitVec 16) : ((s.setResult (validResult v)).finish .ok 0).valid = true :=
  validResult_valid v

theorem found_value (s : State) (v : BitVec 16) : ((s.setResult (validResult v)).finish .ok 0).value = v :=
  validResult_value v

/-- A command that found `v` completes with `RESULT = v OR 0x10000`. -/
theorem ends_found {o : Host.Outcome State Fault Refusal} {s : State} {v : BitVec 16}
    (ho : o = .next ((s.setResult (validResult v)).finish .ok 0)) :
    ends o s 0 0 (· == .result) (fun t => t.result.toNat = 65536 + v.toNat ∧ t.valid = true ∧ t.value = v) :=
  ends_setResult ho ⟨validResult_toNat v, found_valid s v, found_value s v⟩

end Sys2Proof.Machine

open Sys2Proof Sys2Proof.Machine

/-- Settles O8: over distinct entries the two lookups are inverse, and `WireCodeOf` is the entry by definition. -/
theorem resolveAndWireCodeOf : Obligations.ResolveAndWireCodeOf := by
  unfold Obligations.ResolveAndWireCodeOf
  exact fun et hn hl => ⟨fun _ _ => resolve_eq_some_iff hn hl, fun _ => resolve_eq_none, fun _ _ => Iff.rfl,
    fun _ => exists_wireCodeOf_iff.symm⟩

/-- Settles O9, by whether the code is registered. -/
theorem etresResolvesOrAnswersNone : Obligations.EtresResolvesOrAnswersNone := by
  unfold Obligations.EtresResolvesOrAnswersNone
  intro s code hn _
  refine ⟨wordOf_zero_toNat 0x01 code, fun id hid => ?_, fun hc => ?_⟩
  · exact ends_found (exec_etres_some (resolve_of_wireCodeOf hn hid))
  · exact ends_setResult (exec_etres_none (resolve_eq_none.mpr hc)) ⟨rfl, BitVec.getLsbD_zero, rfl⟩

/-- Settles O10, by whether the id is valid. -/
theorem etwcGivesTheCodeOrBadOperand : Obligations.EtwcGivesTheCodeOrBadOperand := by
  unfold Obligations.EtwcGivesTheCodeOrBadOperand
  intro s id
  refine ⟨wordOf_zero_toNat 0x02 id, fun code hc => ?_, fun hid => ?_⟩
  · exact ends_found (exec_etwc_some hc)
  · exact fails_finish (exec_etwc_none (wireCodeOf_eq_none.mpr hid))

/-- Settles O11: ETWC leaves the register file as it was and the entry in `VALUE`, which `Resolve` takes back to the
id. -/
theorem etwcThenEtresReturnsTheId : Obligations.EtwcThenEtresReturnsTheId := by
  unfold Obligations.EtwcThenEtresReturnsTheId
  intro s id hn _ hid
  obtain ⟨code, hc⟩ := exists_wireCodeOf_iff.mpr hid
  refine ⟨_, _, exec_etwc_some hc, exec_etres_some (id := id) ?_, found_valid _ id, found_value _ id, finish_err _ _ _⟩
  rw [found_value]
  exact resolve_of_wireCodeOf hn hc

end

section
/-! PROOFS. 41_ethernet_frame.md R120 to R126: the frame codec as functions of byte sequences and as the commands ETHDEC
and ETHENC, and the round trips of both. -/

namespace Sys2Proof.Machine

/-! ### The frame codec as functions -/

theorem ethDecode_of_short {et : List Code} {b : List Byte} (h : b.length < 14) :
    ethDecode et b = .error .insufficientData := by
  rw [ethDecode, if_pos h]

theorem ethDecode_of_unresolved {et : List Code} {b : List Byte} (h : 14 ≤ b.length)
    (hr : resolve et (be16 b 12) = none) : ethDecode et b = .error (.unsupportedEtherType (be16 b 12)) := by
  simp only [ethDecode, if_neg (Nat.not_lt.mpr h), hr]

theorem ethDecode_of_resolved {et : List Code} {b : List Byte} {id : EtherTypeId} (h : 14 ≤ b.length)
    (hr : resolve et (be16 b 12) = some id) : ethDecode et b = .ok ⟨macAt b 0, macAt b 6, id, b.drop 14⟩ :=
  ethDecode_eq_ok.mpr ⟨h, hr, rfl, rfl, rfl⟩

/-- The four parts of a header and payload cover the sequence: nothing is lost by decoding it. -/
theorem frameBytes_of_ethDecode {et : List Code} {b : List Byte} {f : EthFrame} (hd : ethDecode et b = .ok f) :
    frameBytes f (be16 b 12) = b := by
  obtain ⟨hl, -, hdst, hsrc, hpay⟩ := ethDecode_eq_ok.mp hd
  rw [frameBytes, hdst, hsrc, hpay, macBytes_macAt (by omega), macBytes_macAt (by omega),
    be16bytes_be16_slice (by omega)]
  calc (b.drop 0).take 6 ++ ((b.drop 6).take 6 ++ ((b.drop 12).take 2 ++ b.drop 14))
      = (b.drop 0).take (6 + 6 + 2) ++ b.drop 14 := by simp only [take_drop_add, List.append_assoc]
    _ = b := List.take_append_drop 14 b

/-! ### The bytes a frame is decoded from and encoded to -/

section
variable {s : State} {n : Nat} {f : EthFrame} (hd : ethDecode s.et (s.bufBytes .wire n) = .ok f)
include hd

theorem dst_of_ethDecode (j : Fin 6) : macByte f.dst j = s.bufByte .wire j := by
  obtain ⟨hl, -, hdst, -⟩ := ethDecode_eq_ok.mp hd
  rw [length_bufBytes] at hl
  rw [hdst, macByte_macAt, Nat.zero_add, byteAt_bufBytes s .wire (by omega)]

theorem src_of_ethDecode (j : Fin 6) : macByte f.src j = s.bufByte .wire (6 + j) := by
  obtain ⟨hl, -, -, hsrc, -⟩ := ethDecode_eq_ok.mp hd
  rw [length_bufBytes] at hl
  rw [hsrc, macByte_macAt, byteAt_bufBytes s .wire (by omega)]

theorem payload_of_ethDecode {k : Nat} (hk : k < n - 14) : byteAt f.payload k = s.bufByte .wire (14 + k) := by
  obtain ⟨-, -, -, -, hpay⟩ := ethDecode_eq_ok.mp hd
  refine byteAt_of_getElem? ?_
  rw [hpay, List.getElem?_drop, getElem?_bufBytes s .wire (by omega)]

end

/-- Bytes 12 and 13 of an encoding are the wire code, high byte first. -/
theorem typeBytes_frameBytes (f : EthFrame) (code : Code) :
    (byteAt (frameBytes f code) 12).toNat = code.toNat / 256 ∧
      (byteAt (frameBytes f code) 13).toNat = code.toNat % 256 := by
  have h : [(byteAt (frameBytes f code) 12).toNat, (byteAt (frameBytes f code) 13).toNat] =
      [code.toNat / 256, code.toNat % 256] := be16bytes_toNat code
  simpa using h

/-! ### The two lengths -/

/-- `PLEN <- WLEN - 14` does not wrap below zero. -/
theorem setFrame_plen_toNat {s : State} (f : EthFrame) (h : 14 ≤ s.wlen.toNat) :
    (s.setFrame f).plen.toNat = s.wlen.toNat - 14 := by
  rw [setFrame_plen, BitVec.toNat_sub_of_le h]
  rfl

/-- `WLEN <- 14 + PLEN` does not wrap past 32 bits. -/
theorem setRaw_wlen_toNat {s : State} (bs : List Byte) (hp : s.plen.toNat ≤ s.cfg.pbufBytes)
    (hw : s.cfg.wbufBytes ≤ 65536) : (s.setRaw bs).wlen.toNat = 14 + s.plen.toNat := by
  simp only [Config.pbufBytes] at hp
  rw [setRaw_wlen, BitVec.toNat_add_of_lt]
  · rfl
  · change 14 + s.plen.toNat < 2 ^ 32
    omega

/-! ### How the two commands end -/

/-- A command that succeeds ends with code 0, having changed its "writes" column and `STATUS` only. -/
theorem ends_of_exec_ok {i : Instr} {s u : State} {post : State → Prop} (h : exec i s = .next (u.finish .ok 0))
    (hp : post (u.finish .ok 0)) : ends (exec i s) s 0 0 (writesReg i s) post :=
  ⟨_, h, rfl, ran_frame (ran_of_exec h), hp⟩

/-- The type of the frame the registers hold is registered. -/
theorem exists_wireCodeOf_of_frame? {s : State} {f : EthFrame} (hf : s.frame? = some f) :
    ∃ code, wireCodeOf s.et f.type = some code := by
  obtain ⟨-, ht, rfl⟩ := frame?_eq_some.mp hf
  exact ⟨_, wireCodeOf_eq_some.mpr ⟨ht, rfl⟩⟩

/-- ETHDEC with `ERR = 0` has decoded a frame. -/
theorem ethDecode_of_exec {s t : State} (h : exec .ethdec s = .next t) (he : t.err = 0) :
    ∃ f, s.wlen.toNat ≤ s.cfg.wbufBytes ∧ ethDecode s.et (s.bufBytes .wire s.wlen.toNat) = .ok f ∧
      t = (s.setFrame f).finish .ok 0 := by
  cases ran_of_exec h with
  | ethdecOk hw hd => exact ⟨_, hw, hd, rfl⟩
  | ethdecBad _ | ethdecShort _ _ | ethdecType _ _ _ =>
    rw [finish_err] at he
    exact absurd he (by decide)

/-- The encoding of the frame the registers hold is as long as the range ETHENC writes. -/
theorem length_frameBytes_of_frame? {s : State} {f : EthFrame} (hf : s.frame? = some f) (code : Code) :
    (frameBytes f code).length = 14 + s.plen.toNat := by
  obtain ⟨-, -, rfl⟩ := frame?_eq_some.mp hf
  rw [length_frameBytes, length_bufBytes]

/-- After a successful ETHENC the wire buffer is the encoding of the frame. -/
theorem setRaw_wireBytes {s : State} {f : EthFrame} (hf : s.frame? = some f) (hw : s.cfg.wbufBytes ≤ 65536)
    (code : Code) :
    (s.setRaw (frameBytes f code)).bufBytes .wire (s.setRaw (frameBytes f code)).wlen.toNat = frameBytes f code := by
  obtain ⟨hp, -⟩ := frame?_eq_some.mp hf
  rw [setRaw_wlen_toNat _ hp hw, ← length_frameBytes_of_frame? hf code, setRaw_bufBytes]

/-- After a successful ETHENC the wire buffer is in range and decodes to the frame. -/
theorem ethDecode_setRaw {s : State} {f : EthFrame} {code : Code} (h : s.Inv) (hf : s.frame? = some f)
    (hc : wireCodeOf s.et f.type = some code) :
    (s.setRaw (frameBytes f code)).wlen.toNat ≤ s.cfg.wbufBytes ∧
      ethDecode s.et ((s.setRaw (frameBytes f code)).bufBytes .wire (s.setRaw (frameBytes f code)).wlen.toNat) =
        .ok f := by
  obtain ⟨hn, -⟩ := registry_of_inv h
  obtain ⟨-, hcap⟩ := capacities_of_inv h
  obtain ⟨-, hw⟩ := bounds_of_inv h
  obtain ⟨hp, -⟩ := frame?_eq_some.mp hf
  constructor
  · rw [setRaw_wlen_toNat _ hp hw, hcap]
    exact Nat.add_le_add_left hp 14
  · rw [setRaw_wireBytes hf hw code]
    exact ethDecode_frameBytes hn hc

/-- The frame the registers hold does not depend on the wire buffer or its length (10_state.md R33). -/
theorem frame?_of_wire (s : State) (wbuf : Memory) (wlen : Word) :
    { s with wbuf := wbuf, wlen := wlen }.frame? = s.frame? := rfl

end Sys2Proof.Machine

open Sys2Proof Sys2Proof.Machine

/-- Settles O14: the type field is the one code whose bytes stand at offset 12. -/
theorem ethDecodeChecksLengthThenType : Obligations.EthDecodeChecksLengthThenType := by
  unfold Obligations.EthDecodeChecksLengthThenType
  refine fun et b => ⟨ethDecode_of_short, fun code hl hc => ?_⟩
  obtain rfl : be16 b 12 = code := (be16_eq_iff (by omega)).mpr hc.symm
  exact ⟨ethDecode_of_unresolved hl, fun id hr => ⟨_, ethDecode_of_resolved hl hr,
    macBytes_macAt (i := 0) (by omega), macBytes_macAt (by omega), rfl, rfl⟩⟩

/-- Settles O15: `Resolve` takes the wire code back to the frame's type. -/
theorem frameDecodesFromItsEncoding : Obligations.FrameDecodesFromItsEncoding := by
  unfold Obligations.FrameDecodesFromItsEncoding
  intro et f code hn _ hc
  refine ⟨frameBytes f code, ethEncode_eq_some.mpr ⟨code, hc, rfl⟩, ?_, length_frameBytes f code,
    ethDecode_frameBytes hn hc⟩
  simp only [frameBytes, List.append_assoc]

/-- Settles O16: the decoded id is registered under the buffer's own type field. -/
theorem decodedFrameEncodesToItsBuffer : Obligations.DecodedFrameEncodesToItsBuffer := by
  unfold Obligations.DecodedFrameEncodesToItsBuffer
  intro et b f _ hl hd
  obtain ⟨-, hr, -⟩ := ethDecode_eq_ok.mp hd
  exact ethEncode_eq_some.mpr ⟨be16 b 12, wireCodeOf_of_resolve hl hr, (frameBytes_of_ethDecode hd).symm⟩

/-- Settles O12, by the order of the command's tests. -/
theorem ethdecDecodesOrFailsByKind : Obligations.EthdecDecodesOrFailsByKind := by
  unfold Obligations.EthdecDecodesOrFailsByKind
  intro s code hn _ hcode
  have htype (hl : 14 ≤ s.wlen.toNat) : be16 (s.bufBytes .wire s.wlen.toNat) 12 = code :=
    be16_bufBytes s .wire (by omega) hcode
  have hlen : (s.bufBytes .wire s.wlen.toNat).length = s.wlen.toNat := length_bufBytes s .wire _
  refine ⟨rfl, fun hw => ?_, fun hw hl => ?_, fun hw hl hc => ?_, fun hw hl id hid => ?_⟩
  · exact fails_finish (exec_ethdec_bad hw)
  · exact fails_finish (exec_ethdec_error hw (ethDecode_of_short (hlen.trans_lt hl)))
  · have hr : resolve s.et (be16 (s.bufBytes .wire s.wlen.toNat) 12) = none := htype hl ▸ resolve_eq_none.mpr hc
    exact fails_finish (htype hl ▸ exec_ethdec_error hw (ethDecode_of_unresolved (hlen.symm ▸ hl) hr))
  · have hr : resolve s.et (be16 (s.bufBytes .wire s.wlen.toNat) 12) = some id :=
      htype hl ▸ resolve_of_wireCodeOf hn hid
    obtain ⟨f, hid, hd⟩ : ∃ f : EthFrame, f.type = id ∧ ethDecode s.et (s.bufBytes .wire s.wlen.toNat) = .ok f :=
      ⟨_, rfl, ethDecode_of_resolved (hlen.symm ▸ hl) hr⟩
    refine ends_of_exec_ok (exec_ethdec_ok hw hd)
      ⟨dst_of_ethDecode hd, src_of_ethDecode hd, hid, setFrame_plen_toNat f hl, fun k hk => ?_⟩
    rw [finish_bufByte, setFrame_bufByte_in _ _ (by rwa [length_payload_of_ethDecode hd]),
      payload_of_ethDecode hd hk]

/-- Settles O13, by whether the registers hold a frame. -/
theorem ethencEncodesOrBadOperand : Obligations.EthencEncodesOrBadOperand := by
  unfold Obligations.EthencEncodesOrBadOperand
  refine fun s => ⟨rfl, fun hb => fails_finish (exec_ethenc_bad (frame?_eq_none.mpr hb)), fun hp hw code hc => ?_⟩
  obtain ⟨ht, -⟩ := List.getElem?_eq_some_iff.mp hc
  obtain ⟨f, hfe⟩ : ∃ f : EthFrame, f = ⟨s.fDst, s.fSrc, s.fType, s.bufBytes .payload s.plen.toNat⟩ := ⟨_, rfl⟩
  have hf : s.frame? = some f := frame?_eq_some.mpr ⟨hp, ht, hfe⟩
  have hcode : wireCodeOf s.et f.type = some code := hfe ▸ hc
  have hbyte {k : Nat} (hk : k < 14 + s.plen.toNat) :
      ((s.setRaw (frameBytes f code)).finish .ok 0).bufByte .wire k = byteAt (frameBytes f code) k := by
    rw [finish_bufByte, setRaw_bufByte_in _ _ (hk.trans_eq (length_frameBytes_of_frame? hf code).symm)]
  obtain ⟨hhi, hlo⟩ := typeBytes_frameBytes f code
  refine ends_of_exec_ok (exec_ethenc_ok hf hcode)
    ⟨fun j => ?_, fun j => ?_, ?_, ?_, fun k hk => ?_, setRaw_wlen_toNat (frameBytes f code) hp hw⟩
  · rw [hbyte (by omega), byteAt_frameBytes_dst, hfe]
  · rw [hbyte (by omega), byteAt_frameBytes_src, hfe]
  · rw [hbyte (by omega), hhi]
  · rw [hbyte (by omega), hlo]
  · rw [hbyte (by omega), byteAt_frameBytes_payload, hfe, byteAt_bufBytes s .payload hk]

/-- Settles O17: ETHENC leaves the encoding in the wire buffer, which fits it and decodes to the frame. -/
theorem ethencThenEthdecKeepsTheFrame : Obligations.EthencThenEthdecKeepsTheFrame := by
  unfold Obligations.EthencThenEthdecKeepsTheFrame
  intro s f h hf
  obtain ⟨-, hl, -⟩ := registry_of_inv h
  obtain ⟨code, hc⟩ := exists_wireCodeOf_of_frame? hf
  obtain ⟨hfit, hd⟩ := ethDecode_setRaw h hf hc
  exact ⟨_, _, exec_ethenc_ok hf hc, exec_ethdec_ok hfit hd,
    setFrame_frame? (s := (s.setRaw (frameBytes f code)).finish .ok 0) hl hfit hd, finish_err _ _ _⟩

/-- Settles O18: the registers hold the decoded frame, whose encoding is the buffer it was decoded from. -/
theorem ethdecThenEthencRestoresTheBuffer : Obligations.EthdecThenEthencRestoresTheBuffer := by
  unfold Obligations.EthdecThenEthencRestoresTheBuffer
  intro s t wbuf wlen h hx he
  obtain ⟨-, hl, -⟩ := registry_of_inv h
  obtain ⟨f, hw, hd, rfl⟩ := ethDecode_of_exec hx he
  obtain ⟨-, hr, -⟩ := ethDecode_eq_ok.mp hd
  have hf := (frame?_of_wire ((s.setFrame f).finish .ok 0) wbuf wlen).trans (setFrame_frame? hl hw hd)
  have hb := frameBytes_of_ethDecode hd
  refine ⟨_, exec_ethenc_ok hf (wireCodeOf_of_resolve hl hr), finish_err _ _ _, ?_, fun k hk => ?_⟩
  · exact (BitVec.add_comm _ _).trans (BitVec.sub_add_cancel s.wlen 14)
  · rw [finish_bufByte, hb, setRaw_bufByte_in _ _ (by rwa [length_bufBytes]), byteAt_bufBytes s .wire hk]

end

section
/-! PROOFS. 42_arp_packet.md R130 to R140: the packet codec as functions of byte sequences and as the commands ARPDEC,
ARPENC and ARPREQ, and the round trips. -/

namespace Sys2Proof.Machine

/-! ### The tests of the packet decoder -/

theorem arpDecode_of_short {strict : Bool} {b : List Byte} (h : b.length < 28) :
    arpDecode strict b = .error .insufficientData := by
  rw [arpDecode, if_pos h]

theorem arpDecode_of_lengthBytes {strict : Bool} {b : List Byte} (h : 28 ≤ b.length)
    (hb : byteAt b 4 ≠ 6 ∨ byteAt b 5 ≠ 4) : arpDecode strict b = .error .unsupportedAddressLength := by
  rw [arpDecode, if_neg (Nat.not_lt.mpr h), if_pos hb]

theorem arpDecode_of_types {strict : Bool} {b : List Byte} (h : 28 ≤ b.length) (h4 : byteAt b 4 = 6)
    (h5 : byteAt b 5 = 4) (hs : strict = true) (ht : be16 b 0 ≠ 1 ∨ be16 b 2 ≠ 0x0800) :
    arpDecode strict b = .error .unsupportedArpProfile := by
  rw [arpDecode, if_neg (Nat.not_lt.mpr h), if_neg (by simp [h4, h5]), if_pos ⟨hs, ht⟩]

theorem arpDecode_of_profile {strict : Bool} {b : List Byte} (h : 28 ≤ b.length) (h4 : byteAt b 4 = 6)
    (h5 : byteAt b 5 = 4) (ht : strict = true → be16 b 0 = 1 ∧ be16 b 2 = 0x0800) :
    arpDecode strict b = .ok ⟨be16 b 0, be16 b 2, byteAt b 4, byteAt b 5, be16 b 6, macAt b 8, ipv4At b 14,
      macAt b 18, ipv4At b 24⟩ :=
  arpDecode_eq_ok.mpr ⟨h, h4, h5, ht, rfl⟩

/-! ### The tests on byte slices -/

theorem take_drop_two {b : List Byte} {i : Nat} (h : i + 2 ≤ b.length) :
    (b.drop i).take 2 = [byteAt b i, byteAt b (i + 1)] :=
  (be16bytes_be16_slice h).symm.trans (be16bytes_be16 b i)

/-- The two length bytes as a slice. -/
theorem lengthBytes_eq_iff {b : List Byte} (h : 28 ≤ b.length) :
    (b.drop 4).take 2 = [6, 4] ↔ byteAt b 4 = 6 ∧ byteAt b 5 = 4 := by
  rw [take_drop_two (by omega), List.cons.injEq, List.cons.injEq, and_iff_left rfl]

/-- The two types as a slice, each high byte first. -/
theorem typeBytes_eq_iff {b : List Byte} (h : 28 ≤ b.length) :
    b.take 4 = [0, 1, 8, 0] ↔ be16 b 0 = 1 ∧ be16 b 2 = 0x0800 := by
  have hsplit : b.take 4 = (b.drop 0).take 2 ++ (b.drop 2).take 2 := take_drop_add b 0 2 2
  have hbytes : ([0, 1, 8, 0] : List Byte) = be16bytes 1 ++ be16bytes 0x0800 := by decide
  have hlen : ((b.drop 0).take 2).length = (be16bytes 1).length := by
    simp only [List.drop_zero, List.length_take, length_be16bytes]
    omega
  rw [be16_eq_iff (by omega), be16_eq_iff (by omega), hsplit, hbytes]
  exact ⟨fun h => List.append_inj h hlen, fun ⟨h0, h2⟩ => by rw [h0, h2]⟩

/-! ### Round trips of the functions -/

/-- The nine ranges cover the first 28 bytes: nothing of them is lost by decoding. -/
theorem arpEncode_of_arpDecode {strict : Bool} {b : List Byte} {p : ArpPacket} (hd : arpDecode strict b = .ok p) :
    arpEncode p = b.take 28 := by
  obtain ⟨hl, -, -, -, rfl⟩ := arpDecode_eq_ok.mp hd
  calc
    _ = be16bytes (be16 b 0) ++ (be16bytes (be16 b 2) ++ ([byteAt b 4, byteAt b 5] ++ (be16bytes (be16 b 6) ++
        (macBytes (macAt b 8) ++ (ipv4Bytes (ipv4At b 14) ++ (macBytes (macAt b 18) ++
          ipv4Bytes (ipv4At b 24))))))) := rfl
    _ = (b.drop 0).take 2 ++ ((b.drop 2).take 2 ++ ((b.drop 4).take 2 ++ ((b.drop 6).take 2 ++
        ((b.drop 8).take 6 ++ ((b.drop 14).take 4 ++ ((b.drop 18).take 6 ++ (b.drop 24).take 4)))))) := by
      simp (disch := omega) only [be16bytes_be16_slice, take_drop_two, macBytes_macAt, ipv4Bytes_ipv4At]
    _ = (b.drop 0).take (2 + 2 + 2 + 2 + 6 + 4 + 6 + 4) := by simp only [take_drop_add, List.append_assoc]

/-- Without the strict test the length bytes alone decide. -/
theorem arpDecode_false_arpEncode {p : ArpPacket} (h6 : p.hlen = 6) (h4 : p.plen = 4) :
    arpDecode false (arpEncode p) = .ok p := by
  have hf := fields_arpEncode p []
  rw [List.append_nil] at hf
  exact arpDecode_eq_ok.mpr ⟨(length_arpEncode p).ge, h6, h4, nofun, hf.symm⟩

/-! ### The commands -/

theorem macByte_macAt_bufBytes (s : State) (b : Buffer) {n i : Nat} (h : i + 6 ≤ n) (j : Fin 6) :
    macByte (macAt (s.bufBytes b n) i) j = s.bufByte b (i + j) := by
  rw [macByte_macAt, byteAt_bufBytes s b (by omega)]

theorem ipv4Byte_ipv4At_bufBytes (s : State) (b : Buffer) {n i : Nat} (h : i + 4 ≤ n) (j : Fin 4) :
    ipv4Byte (ipv4At (s.bufBytes b n) i) j = s.bufByte b (i + j) := by
  rw [ipv4Byte_ipv4At, byteAt_bufBytes s b (by omega)]

/-- A new request is profile-valid, whatever the addresses. -/
theorem profileValid_arpNewRequest (sha tha : Mac) (spa tpa : Ipv4) :
    profileValid (arpNewRequest sha tha spa tpa) := ⟨rfl, rfl, rfl, rfl⟩

/-- The payload buffer reads back as the encoding that ARPENC wrote. -/
theorem bufBytes_after_arpenc (s : State) :
    ((s.setPayload (arpEncode s.packet)).finish .ok 0).bufBytes .payload 28 = arpEncode s.packet :=
  (finish_bufBytes _ _ _ .payload 28).trans (setPayload_bufBytes s (arpEncode s.packet))

/-- ARPDEC right after ARPENC reads the packet back, when that is profile-valid and the buffer has room for it. -/
theorem exec_arpdec_after_arpenc {s : State} (hfit : 28 ≤ s.cfg.pbufBytes) (h : profileValid s.packet) :
    ∃ t u, exec .arpenc s = .next t ∧ exec .arpdec t = .next u ∧ u.packet = s.packet ∧ u.err = 0 := by
  have hd := arpDecode_arpEncode_append (strict := s.cfg.arpStrictTypes) h []
  rw [List.append_nil, ← bufBytes_after_arpenc] at hd
  exact ⟨_, _, exec_arpenc s, exec_arpdec_ok hfit hd, rfl, finish_err _ _ _⟩

end Sys2Proof.Machine

open Sys2Proof Sys2Proof.Machine

/-- Settles O22: the slices `b[4:6)` and `b[0:4)` are the length bytes and the types that the decoder tests. -/
theorem arpDecodeChecksInOrder : Obligations.ArpDecodeChecksInOrder := by
  unfold Obligations.ArpDecodeChecksInOrder
  refine fun strict b => ⟨arpDecode_of_short, fun hl hb => ?_, fun hl hb hs ht => ?_, fun hl hb ht => ?_⟩
  · rw [ne_eq, lengthBytes_eq_iff hl, not_and_or] at hb
    exact arpDecode_of_lengthBytes hl hb
  · obtain ⟨h4, h5⟩ := (lengthBytes_eq_iff hl).mp hb
    rw [ne_eq, typeBytes_eq_iff hl, not_and_or] at ht
    exact arpDecode_of_types hl h4 h5 hs ht
  · obtain ⟨h4, h5⟩ := (lengthBytes_eq_iff hl).mp hb
    exact ⟨_, arpDecode_of_profile hl h4 h5 fun hs => (typeBytes_eq_iff hl).mp (ht hs),
      be16bytes_be16_slice (i := 0) (by omega), be16bytes_be16_slice (by omega), by rw [h4, h5],
      be16bytes_be16_slice (by omega), macBytes_macAt (by omega), ipv4Bytes_ipv4At (by omega),
      macBytes_macAt (by omega), ipv4Bytes_ipv4At (by omega)⟩

/-- Settles O23, by the fields read back from the encoding. -/
theorem packetDecodesFromItsEncoding : Obligations.PacketDecodesFromItsEncoding := by
  unfold Obligations.PacketDecodesFromItsEncoding
  exact fun strict p tail => ⟨length_arpEncode p, rfl, fun h => arpDecode_arpEncode_append h tail⟩

/-- Settles O24: the encoding has `hlen` and `plen` as its length bytes, and the fields are read from the first 28
bytes without loss. -/
theorem decodedPacketEncodesToItsBytes : Obligations.DecodedPacketEncodesToItsBytes := by
  unfold Obligations.DecodedPacketEncodesToItsBytes
  refine ⟨fun p => arpDecode_false_arpEncode, fun strict p => arpDecode_of_lengthBytes (length_arpEncode p).ge,
    fun strict b p hd => ⟨arpEncode_of_arpDecode hd, ?_⟩⟩
  obtain ⟨hl, -⟩ := arpDecode_eq_ok.mp hd
  rw [arpEncode_of_arpDecode hd, List.take_eq_self_iff]
  exact ⟨fun h => Nat.le_antisymm h hl, Nat.le_of_eq⟩

/-- Settles O19, by the order of the command's tests. -/
theorem arpdecDecodesOrFailsByKind : Obligations.ArpdecDecodesOrFailsByKind := by
  unfold Obligations.ArpdecDecodesOrFailsByKind
  intro s htype ptype oper hh hp ho
  have hlen : (s.bufBytes .payload s.plen.toNat).length = s.plen.toNat := length_bufBytes s .payload _
  have hbyte {k : Nat} (hl : 28 ≤ s.plen.toNat) (hk : k < 28 := by decide) :
      byteAt (s.bufBytes .payload s.plen.toNat) k = s.bufByte .payload k := byteAt_bufBytes s .payload (by omega)
  have hhtype (hl : 28 ≤ s.plen.toNat) : be16 (s.bufBytes .payload s.plen.toNat) 0 = htype :=
    be16_bufBytes s .payload (by omega) hh
  have hptype (hl : 28 ≤ s.plen.toNat) : be16 (s.bufBytes .payload s.plen.toNat) 2 = ptype :=
    be16_bufBytes s .payload (by omega) hp
  refine ⟨rfl, fun hw => ?_, fun hw hl => ?_, fun hw hl hb => ?_, fun hw hl h4 h5 hs ht => ?_,
    fun hw hl h4 h5 ht => ?_⟩
  · exact fails_finish (exec_arpdec_bad hw)
  · exact fails_finish (exec_arpdec_error hw (arpDecode_of_short (hlen.trans_lt hl)))
  · refine fails_finish (exec_arpdec_error hw (arpDecode_of_lengthBytes (hl.trans_eq hlen.symm) ?_))
    rwa [hbyte hl, hbyte hl]
  · refine fails_finish (exec_arpdec_error hw (arpDecode_of_types (hl.trans_eq hlen.symm) ((hbyte hl).trans h4)
      ((hbyte hl).trans h5) hs ?_))
    rwa [hhtype hl, hptype hl]
  · have hd := arpDecode_of_profile (hl.trans_eq hlen.symm) ((hbyte hl).trans h4) ((hbyte hl).trans h5)
      (by rwa [hhtype hl, hptype hl])
    exact ends_of_exec_ok (exec_arpdec_ok hw hd) ⟨hhtype hl, hptype hl, (hbyte hl).trans h4, (hbyte hl).trans h5,
      be16_bufBytes s .payload (by omega) ho, macByte_macAt_bufBytes s .payload (by omega),
      ipv4Byte_ipv4At_bufBytes s .payload (by omega), macByte_macAt_bufBytes s .payload (by omega),
      ipv4Byte_ipv4At_bufBytes s .payload (by omega)⟩

/-- Settles O20: the payload buffer reads back as the encoding of the packet in the registers. -/
theorem arpencSerialisesThePacket : Obligations.ArpencSerialisesThePacket := by
  unfold Obligations.ArpencSerialisesThePacket
  exact fun s => ⟨rfl, ends_of_exec_ok (exec_arpenc s) ⟨rfl, bufBytes_after_arpenc s⟩⟩

/-- Settles O21: the packet of the registers is the new request by definition. -/
theorem arpreqMakesANewRequest : Obligations.ArpreqMakesANewRequest := by
  unfold Obligations.ArpreqMakesANewRequest
  exact fun s => ⟨rfl, ends_of_exec_ok (exec_arpreq s)
    ⟨rfl, rfl, rfl, rfl, rfl, setRequest_packet s, profileValid_arpNewRequest _ _ _ _⟩⟩

/-- Settles O25: ARPENC leaves the encoding of the new request in a buffer that is large enough, and that decodes on
every block. -/
theorem requestSurvivesEncodeAndDecode : Obligations.RequestSurvivesEncodeAndDecode := by
  unfold Obligations.RequestSurvivesEncodeAndDecode
  intro s hc
  obtain ⟨-, -, -, -, -, -, hw, -⟩ := hc
  obtain ⟨u, v, hu, hv, hpacket, herr⟩ := exec_arpdec_after_arpenc (s := s.setRequest.finish .ok 0)
    (Nat.le_sub_of_add_le hw) (profileValid_arpNewRequest s.aSha s.aTha s.aSpa s.aTpa)
  exact ⟨_, u, v, exec_arpreq s, hu, hv, hpacket, herr⟩

end

section
/-! PROOFS. 43_host_access.md R145 to R149 and R152: host reads and writes, register by register, and the one stop of
the machine. -/

namespace Sys2Proof.Machine

/-! ### The value of a register -/

/-- A field on the data path keeps its bound: it is zero-extended. -/
theorem toNat_setWidth_lt {n : Nat} (x : BitVec n) (w : Nat) : (x.setWidth w).toNat < 2 ^ n := by
  rw [BitVec.toNat_setWidth]
  exact (Nat.mod_le _ _).trans_lt x.isLt

/-- A register's value fits its own width. -/
theorem regValue_toNat_lt (s : State) (r : Reg) : (s.regValue r).toNat < 2 ^ regWidth r := by
  cases r
  case cmd | status | result | wlen | plen => exact BitVec.isLt _
  all_goals exact toNat_setWidth_lt _ 32

/-! ### A register write -/

section
variable (s : State) (v : Word)

theorem setReg_of_readOnly {r : Reg} (h : hostWritable r = false) : s.setReg r v = s := by
  cases r
  case cmd | status | result | et => rfl
  all_goals cases h

/-- A byte of a MAC register array other than the one written. -/
theorem macByte_setMacByte_of_ne (m : Mac) {j k : Fin 6} (h : k ≠ j) (b : Byte) :
    macByte (setMacByte m j b) k = macByte m k :=
  (macByte_setMacByte m j k b).trans (if_neg h)

/-- A byte of an IPv4 register array other than the one written. -/
theorem ipv4Byte_setIpv4Byte_of_ne (a : Ipv4) {j k : Fin 4} (h : k ≠ j) (b : Byte) :
    ipv4Byte (setIpv4Byte a j b) k = ipv4Byte a k :=
  (ipv4Byte_setIpv4Byte a j k b).trans (if_neg h)

/-- A byte of a buffer just written alone. -/
theorem bufByte_writeBuf_singleton (b : Buffer) (k : Nat) (x : Byte) : (s.writeBuf b k [x]).bufByte b k = x := by
  rw [bufByte_writeBuf_in s b (Nat.le_refl k) (by simp), Nat.sub_self]
  rfl

/-- A byte of a buffer other than the one written. -/
theorem bufByte_writeBuf_singleton_of_ne (b : Buffer) {k k' : Nat} (h : k' ≠ k) (x : Byte) :
    (s.writeBuf b k [x]).bufByte b k' = s.bufByte b k' :=
  bufByte_writeBuf_out s b (by simp only [List.length_singleton]; omega)

/-- A register the host writes keeps the low bits of the data. -/
theorem regValue_setReg_same {r : Reg} (h : hostWritable r = true) :
    (s.setReg r v).regValue r = (v.setWidth (regWidth r)).setWidth 32 := by
  cases r
  case cmd | status | result | et => cases h
  case wlen | plen => simp only [State.regValue, State.setReg, regWidth, BitVec.setWidth_eq]
  case fType | aHtype | aPtype | aHln | aPln | aOper => rfl
  case fDst j | fSrc j | aSha j | aTha j =>
    exact congrArg (BitVec.setWidth 32) ((macByte_setMacByte _ j j _).trans (if_pos rfl))
  case aSpa j | aTpa j => exact congrArg (BitVec.setWidth 32) ((ipv4Byte_setIpv4Byte _ j j _).trans (if_pos rfl))
  case wbuf k => exact congrArg (BitVec.setWidth 32) (bufByte_writeBuf_singleton s .wire k _)
  case pbuf k => exact congrArg (BitVec.setWidth 32) (bufByte_writeBuf_singleton s .payload k _)

/-- The other registers read as before. -/
theorem regValue_setReg_of_ne {r r' : Reg} (h : r' ≠ r) : (s.setReg r v).regValue r' = s.regValue r' := by
  cases r
  case cmd | status | result | et => rfl
  case fDst j | fSrc j | aSha j | aTha j =>
    cases r' <;> first
      | rfl
      | exact congrArg (BitVec.setWidth 32) (macByte_setMacByte_of_ne _ (by rintro rfl; exact h rfl) _)
  case aSpa j | aTpa j =>
    cases r' <;> first
      | rfl
      | exact congrArg (BitVec.setWidth 32) (ipv4Byte_setIpv4Byte_of_ne _ (by rintro rfl; exact h rfl) _)
  case wbuf k =>
    cases r'
    case wbuf k' =>
      exact congrArg (BitVec.setWidth 32) (bufByte_writeBuf_singleton_of_ne s .wire (mt (congrArg Reg.wbuf) h) _)
    all_goals rfl
  case pbuf k =>
    cases r'
    case pbuf k' =>
      exact congrArg (BitVec.setWidth 32) (bufByte_writeBuf_singleton_of_ne s .payload (mt (congrArg Reg.pbuf) h) _)
    all_goals rfl
  all_goals cases r' <;> first | rfl | exact absurd rfl h

theorem unchangedExcept_setReg (r : Reg) : unchangedExcept (· == r) s (s.setReg r v) :=
  ⟨fun _ h => regValue_setReg_of_ne s v (beq_eq_false_iff_ne.mp h), setReg_et s r v, setReg_cfg s r v,
    setReg_port s r v, setReg_resets s r v⟩

end

theorem regValue_setReg_same_toNat (s : State) (v : Word) {r : Reg} (h : hostWritable r = true) :
    ((s.setReg r v).regValue r).toNat = v.toNat % 2 ^ regWidth r := by
  have hw : v.toNat % 2 ^ regWidth r < 2 ^ 32 := (Nat.mod_le _ _).trans_lt v.isLt
  rw [regValue_setReg_same s v h, BitVec.toNat_setWidth, BitVec.toNat_setWidth, Nat.mod_eq_of_lt hw]

/-! ### One step that accesses a mapped register, or none -/

/-- One step that writes a register that is not `CMD`. -/
theorem step_of_write {s : State} {r : Reg} {v : Word} {es : List HostEvent} (h : s.Inv) (hm : s.maps r = true)
    (hc : r ≠ .cmd) (hp : s.port.pending = .write (regAddr r) v :: es) :
    step s = .next ((s.setPending es).setReg r v) := by
  rw [step_of_pending hp]
  exact hostWrite_of_regAt v (s := s.setPending es) ((regAt_eq_some_iff h).mpr ⟨hm, rfl⟩) hc

/-- One step that writes a read-only register. -/
theorem step_of_write_readOnly {s : State} {r : Reg} {v : Word} {es : List HostEvent} (h : s.Inv)
    (hm : s.maps r = true) (hc : r ≠ .cmd) (hr : hostWritable r = false)
    (hp : s.port.pending = .write (regAddr r) v :: es) : step s = .next (s.setPending es) := by
  rw [step_of_write h hm hc hp, setReg_of_readOnly _ _ hr]

theorem regAt_eq_none_of_forall_ne {s : State} {a : Addr} (h : ∀ r, s.maps r = true → regAddr r ≠ a) :
    s.regAt a = none := by
  refine Option.eq_none_iff_forall_ne_some.mpr fun r hr => ?_
  obtain ⟨hm, ha⟩ := maps_of_regAt hr
  exact h r hm ha

theorem step_of_read_unmapped {s : State} {a : Addr} {es : List HostEvent} (ha : s.regAt a = none)
    (hp : s.port.pending = .read a :: es) : step s = .refused (.unmappedAccess a) := by
  rw [step_of_pending hp]
  simp only [hostEvent, hostRead, setPending_regAt, ha]

theorem step_of_write_unmapped {s : State} {a : Addr} {v : Word} {es : List HostEvent} (ha : s.regAt a = none)
    (hp : s.port.pending = .write a v :: es) : step s = .refused (.unmappedAccess a) := by
  rw [step_of_pending hp]
  simp only [hostEvent, hostWrite, setPending_regAt, ha]

/-! ### Where the machine stops -/

theorem hostRead_next {s : State} {a : Addr} (h : s.regAt a ≠ none) : ∃ t, hostRead a s = .next t := by
  obtain ⟨r, hr⟩ := Option.ne_none_iff_exists'.mp h
  exact ⟨_, hostRead_of_regAt hr⟩

/-- A write to a mapped address is a command word, which always ends, or a register write. -/
theorem hostWrite_next {s : State} {a : Addr} (v : Word) (h : s.regAt a ≠ none) : ∃ t, hostWrite a v s = .next t := by
  obtain ⟨r, hr⟩ := Option.ne_none_iff_exists'.mp h
  by_cases hc : r = .cmd
  · subst hc
    obtain rfl := regAt_eq_cmd hr
    exact runCommand_next v s
  · exact ⟨_, hostWrite_of_regAt v hr hc⟩

theorem step_next_of_nextMapped {s : State} (h : s.nextMapped) : ∃ t, step s = .next t := by
  simp only [State.nextMapped] at h
  cases hp : s.port.pending with
  | nil => exact ⟨s, step_of_idle hp⟩
  | cons e es =>
    rw [hp] at h
    rw [step_of_pending hp]
    cases e with
    | read a => exact hostRead_next (s := s.setPending es) h
    | write a v => exact hostWrite_next (s := s.setPending es) v h
    | reset | skipUnless => exact ⟨_, rfl⟩

theorem access_of_not_nextMapped {s : State} (h : ¬ s.nextMapped) : ∃ a es, s.regAt a = none ∧
    (s.port.pending = .read a :: es ∨ ∃ v, s.port.pending = .write a v :: es) := by
  simp only [State.nextMapped] at h
  split at h
  · next a es hp => exact ⟨a, es, not_not.mp h, .inl hp⟩
  · next a v es hp => exact ⟨a, es, not_not.mp h, .inr ⟨v, hp⟩⟩
  · exact absurd trivial h

end Sys2Proof.Machine

open Sys2Proof Sys2Proof.Machine

/-- Settles O36. -/
theorem hostReadReturnsTheRegister : Obligations.HostReadReturnsTheRegister := by
  unfold Obligations.HostReadReturnsTheRegister
  intro s es h
  refine ⟨fun r hm hp => ⟨?_, regValue_toNat_lt s r, ?_⟩, fun a ha hp => ?_⟩
  · exact step_of_read hp ((regAt_eq_some_iff h).mpr ⟨hm, rfl⟩) rfl
  · rintro rfl
    rfl
  · exact step_of_read_unmapped (regAt_eq_none_of_forall_ne ha) hp

/-- Settles O37: what a write does to the register itself, and that it is nothing to any other. -/
theorem hostWriteStoresTheLowBits : Obligations.HostWriteStoresTheLowBits := by
  unfold Obligations.HostWriteStoresTheLowBits
  intro s v es h
  refine ⟨step_of_command, fun r hm hc hr => step_of_write_readOnly h hm hc hr, fun r hm hw hp => ?_,
    fun a ha => step_of_write_unmapped (regAt_eq_none_of_forall_ne ha)⟩
  have hc : r ≠ .cmd := by
    rintro rfl
    cases hw
  exact ⟨_, step_of_write h hm hc hp, regValue_setReg_same_toNat _ v hw, unchangedExcept_setReg _ v r⟩

/-- Settles O38. -/
theorem readOnlyRegistersIgnoreWrites : Obligations.ReadOnlyRegistersIgnoreWrites := by
  unfold Obligations.ReadOnlyRegistersIgnoreWrites
  intro s v es h
  exact ⟨step_of_write_readOnly (r := .status) h rfl (by decide) rfl,
    step_of_write_readOnly (r := .result) h rfl (by decide) rfl,
    fun i hi => step_of_write_readOnly (r := .et i) h (decide_eq_true hi) (by simp) rfl,
    fun hp => step_of_read (r := .cmd) hp (regAt_cmd s) rfl⟩

/-- Settles O39: the two kinds of access are refused at an unmapped address, and no event stops anywhere else. -/
theorem onlyUnmappedAccessesStop : Obligations.OnlyUnmappedAccessesStop := by
  unfold Obligations.OnlyUnmappedAccessesStop
  refine fun s => ⟨step_next_of_nextMapped, fun h => ?_⟩
  obtain ⟨a, es, ha, hp⟩ := access_of_not_nextMapped h
  refine ⟨a, es, ?_, ha, hp⟩
  obtain hp | ⟨v, hp⟩ := hp
  · exact step_of_read_unmapped ha hp
  · exact step_of_write_unmapped ha hp

/-- Settles O41: of the six things a step can do, only a command and a reset write `STATUS` or `RESULT`. -/
theorem onlyCommandsWriteStatusAndResult : Obligations.OnlyCommandsWriteStatusAndResult := by
  unfold Obligations.OnlyCommandsWriteStatusAndResult
  intro s t h hcmd hrst
  obtain ⟨-, rfl⟩ | ⟨_, _, _, -, -, rfl⟩ | ⟨v, es, hp, -⟩ | ⟨_, v, _, r, -, -, -, rfl⟩ | ⟨es, hp, -⟩ |
    ⟨_, _, _, _, _, -, rfl⟩ := step_cases h
  · exact ⟨rfl, rfl⟩
  · exact ⟨rfl, rfl⟩
  · exact absurd hp (hcmd v es)
  · exact ⟨setReg_status _ r v, setReg_result _ r v⟩
  · exact absurd hp (hrst es)
  · exact ⟨rfl, rfl⟩

end

section
/-! PROOFS. 60_exceptions.md R161, R162, R165, R166 and 30_encoding.md R95: how a command word ends, with which code,
and what it leaves unchanged when it fails. -/

namespace Sys2Proof.Machine

/-! ### Words that are no command -/

theorem encode_zero_bits (i : Instr) : (encode i >>> 8) &&& 0xFF = 0 := by
  rw [Laws.shift_and_ff, Laws.fieldsOf_encode]
  cases i <;> rfl

theorem encode_op_bits_mem (i : Instr) : encode i &&& 0xFF ∈ [0x01, 0x02, 0x10, 0x11, 0x20, 0x21, 0x22] := by
  rw [Laws.and_ff, Laws.fieldsOf_encode]
  cases i <;> simp [Instr.fields]

/-- A command whose opcode is of format N has no immediate. -/
theorem encode_imm_bits_of_formatN {i : Instr} (h : encode i &&& 0xFF ∈ [0x10, 0x11, 0x20, 0x21, 0x22]) :
    encode i >>> 16 = 0 := by
  rw [Laws.and_ff, Laws.fieldsOf_encode] at h
  rw [Laws.shift_sixteen, Laws.fieldsOf_encode]
  cases i with
  | etres code | etwc id => simp [Instr.fields] at h
  | ethdec | ethenc | arpdec | arpenc | arpreq => rfl

/-- The three kinds of illegal word: each breaks what the word of a command has. -/
theorem decode_ne_ok_of_illegal {w : Word}
    (h : (w >>> 8) &&& 0xFF ≠ 0 ∨ w &&& 0xFF ∉ [0x01, 0x02, 0x10, 0x11, 0x20, 0x21, 0x22] ∨
      (w &&& 0xFF ∈ [0x10, 0x11, 0x20, 0x21, 0x22] ∧ w >>> 16 ≠ 0)) (i : Instr) : decode w ≠ .ok i := by
  intro hd
  obtain rfl := (Laws.decode_ok_iff_encode w i).mp hd
  obtain hz | hop | ⟨hn, himm⟩ := h
  · exact hz (encode_zero_bits i)
  · exact hop (encode_op_bits_mem i)
  · exact himm (encode_imm_bits_of_formatN hn)

theorem runCommand_of_illegal {w : Word} (h : ∀ i, decode w ≠ .ok i) (s : State) :
    runCommand w s = .next (s.finish .illegalCommand 0) := by
  obtain ⟨t, ht⟩ := runCommand_next w s
  obtain ⟨i, hi, -⟩ | ⟨-, rfl⟩ := runCommand_cases ht
  · exact absurd hi (h i)
  · exact ht

/-! ### Commands that fail -/

/-- A command that ends with a nonzero code has done nothing but end. -/
theorem ran_failed {i : Instr} {s t : State} (h : Ran i s t) (he : t.err ≠ 0) : ∃ e info, t = s.finish e info := by
  cases h with
  | etresSome _ | etresNone _ | etwcSome _ | ethdecOk _ _ | ethencOk _ _ | arpdecOk _ _ | arpenc | arpreq =>
    exact absurd (finish_err _ .ok 0) he
  | etwcBad _ | ethdecBad _ | ethdecShort _ _ | ethdecType _ _ _ | ethencBad _ | arpdecBad _ | arpdecShort _ _
  | arpdecLength _ _ _ | arpdecProfile _ _ _ _ _ _ => exact ⟨_, _, rfl⟩

/-! ### `INFO` -/

/-- `STATUS` of `t` as a command word leaves it that started in `s`: with `ERR = 2`, `INFO` is the wire code in the
frame's type bytes, which no entry has; with any other code it is 0. -/
def infoFits (s t : State) : Prop :=
  (t.err = 2 → t.info.toNat = (s.bufByte .wire 12).toNat * 256 + (s.bufByte .wire 13).toNat ∧ t.info ∉ s.et) ∧
    (t.err ≠ 2 → t.info = 0)

/-- Every end but that of an unresolved code writes 0. -/
theorem infoFits_finish_zero {s u : State} {e : ErrCode} (he : errBits e ≠ 2) : infoFits s (u.finish e 0) :=
  ⟨fun h => absurd ((finish_err u e 0).symm.trans h) he, fun _ => finish_info u e 0⟩

theorem infoFits_finish_unresolved {s : State} {n : Nat} (hl : 14 ≤ n)
    (hr : resolve s.et (be16 (s.bufBytes .wire n) 12) = none) :
    infoFits s (s.finish .unsupportedEtherType (be16 (s.bufBytes .wire n) 12)) := by
  refine ⟨fun _ => ?_, fun h => absurd (finish_err _ _ _) h⟩
  rw [finish_info]
  refine ⟨?_, resolve_eq_none.mp hr⟩
  rw [be16_toNat, byteAt_bufBytes s .wire (by omega), byteAt_bufBytes s .wire (by omega)]

theorem ran_infoFits {i : Instr} {s t : State} (h : Ran i s t) : infoFits s t := by
  cases h with
  | ethdecType _ hl hr => exact infoFits_finish_unresolved hl hr
  | etresSome _ | etresNone _ | etwcSome _ | etwcBad _ | ethdecBad _ | ethdecShort _ _ | ethdecOk _ _ | ethencBad _
  | ethencOk _ _ | arpdecBad _ | arpdecShort _ _ | arpdecLength _ _ _ | arpdecProfile _ _ _ _ _ _ | arpdecOk _ _
  | arpenc | arpreq => exact infoFits_finish_zero (by decide)

end Sys2Proof.Machine

open Sys2Proof Sys2Proof.Machine

/-- Settles O5: none of the three kinds of word is the word of a command. -/
theorem illegalWordsWriteStatusOnly : Obligations.IllegalWordsWriteStatusOnly := by
  unfold Obligations.IllegalWordsWriteStatusOnly
  intro w s es hp hw
  exact fails_finish ((step_of_command hp).trans (runCommand_of_illegal (decode_ne_ok_of_illegal hw) _))

/-- Settles O27: a failing word, a command or not, only ends. -/
theorem failingCommandsWriteStatusOnly : Obligations.FailingCommandsWriteStatusOnly := by
  unfold Obligations.FailingCommandsWriteStatusOnly
  intro w s t h he
  obtain ⟨i, -, hr⟩ | ⟨-, rfl⟩ := runCommand_cases h
  · obtain ⟨e, info, rfl⟩ := ran_failed hr he
    exact unchangedExcept_finish noReg s e info
  · exact unchangedExcept_finish noReg s _ _

/-- Settles O28, by everything a command can do: the code is the one its case ends with. -/
theorem resultCodesOfEachCommand : Obligations.ResultCodesOfEachCommand := by
  unfold Obligations.ResultCodesOfEachCommand
  intro w s
  obtain ⟨t, ht⟩ := runCommand_next w s
  refine ⟨t, ht, ?_⟩
  obtain ⟨i, hi, hr⟩ | ⟨hn, rfl⟩ := runCommand_cases ht
  · rw [hi]
    cases hr with
    | etresSome _ | etresNone _ | arpenc | arpreq => exact finish_err _ .ok 0
    | etwcSome _ | ethdecOk _ _ | ethencOk _ _ | arpdecOk _ _ => exact Or.inl (finish_err _ .ok 0)
    | etwcBad _ | ethencBad _ => exact Or.inr (finish_err _ .badOperand 0)
    | ethdecShort _ _ | arpdecShort _ _ => exact Or.inr (.inl (finish_err _ .insufficientData 0))
    | ethdecType _ _ _ => exact Or.inr (.inr (.inl (finish_err _ .unsupportedEtherType _)))
    | ethdecBad _ => exact Or.inr (.inr (.inr (finish_err _ .badOperand 0)))
    | arpdecLength _ _ _ => exact Or.inr (.inr (.inl (finish_err _ .unsupportedAddressLength 0)))
    | arpdecBad _ => exact Or.inr (.inr (.inr (.inl (finish_err _ .badOperand 0))))
    | arpdecProfile _ _ _ _ hs _ => exact Or.inr (.inr (.inr (.inr ⟨finish_err _ .unsupportedArpProfile 0, hs⟩)))
  · cases hd : decode w with
    | ok i => exact absurd hd (hn i)
    | error _ => exact finish_err _ .illegalCommand 0

/-- Settles O29. -/
theorem infoIsTheUnresolvedCode : Obligations.InfoIsTheUnresolvedCode := by
  unfold Obligations.InfoIsTheUnresolvedCode
  intro w s t h
  obtain ⟨i, -, hr⟩ | ⟨-, rfl⟩ := runCommand_cases h
  · exact ran_infoFits hr
  · exact infoFits_finish_zero (by decide)

end

section
/-! PROOFS. 70_reset_and_hazards.md R191: the first commands after reset. -/

namespace Sys2Proof.Machine

/-! ### Buffers too short to decode -/

theorem ethdec_fails_of_short {s : State} (hw : s.wlen.toNat ≤ s.cfg.wbufBytes) (hl : s.wlen.toNat < 14) :
    fails (exec .ethdec s) s 1 0 :=
  fails_finish (exec_ethdec_error hw (ethDecode_of_short ((length_bufBytes s .wire _).trans_lt hl)))

theorem arpdec_fails_of_short {s : State} (hp : s.plen.toNat ≤ s.cfg.pbufBytes) (hl : s.plen.toNat < 28) :
    fails (exec .arpdec s) s 1 0 :=
  fails_finish (exec_arpdec_error hp (arpDecode_of_short ((length_bufBytes s .payload _).trans_lt hl)))

/-! ### What ETHENC leaves -/

/-- The wire buffer reads back as the encoding that ETHENC wrote. -/
theorem bufBytes_after_ethenc (s : State) (f : EthFrame) (code : Code) :
    ((s.setRaw (frameBytes f code)).finish .ok 0).bufBytes .wire (frameBytes f code).length = frameBytes f code :=
  (finish_bufBytes _ _ _ .wire _).trans (setRaw_bufBytes s (frameBytes f code))

/-! ### The frame and the packet reset leaves -/

/-- IPv4 is entry 0 of the register file. -/
theorem wireCodeOf_zero_of_inv {s : State} (h : s.Inv) : wireCodeOf s.et 0 = some 0x0800 := by
  obtain ⟨-, -, -, h0, -⟩ := h.cfgOk
  rw [h.etLoaded]
  exact h0

section
variable {c : Config} (n : Nat) (p : Port)

/-- The registers hold the empty frame between zero addresses, of type 0. -/
theorem frame?_resetOf (hc : c.wf) : (State.resetOf c n p).frame? = some ⟨zeroMac, zeroMac, 0, []⟩ := by
  obtain ⟨ht, -⟩ := wireCodeOf_eq_some.mp (wireCodeOf_zero_of_inv (inv_resetOf hc n p))
  exact frame?_eq_some.mpr ⟨Nat.zero_le _, ht, rfl⟩

/-- The registers hold a packet of zeros, which encodes to zeros. -/
theorem arpEncode_packet_resetOf :
    arpEncode (State.resetOf c n p).packet = List.replicate 28 0 := by
  have hp : (State.resetOf c n p).packet = ⟨0, 0, 0, 0, 0, zeroMac, zeroIpv4, zeroMac, zeroIpv4⟩ := rfl
  rw [hp]
  decide

end

end Sys2Proof.Machine

open Sys2Proof Sys2Proof.Machine

/-- Settles O49: both lengths are 0, so neither decoder reads a byte; the registers hold an empty frame of type 0 and a
packet of zeros, whatever the buffers hold; entries 0 and 1 of the register file are loaded. -/
theorem firstCommandsAfterReset : Obligations.FirstCommandsAfterReset := by
  unfold Obligations.FirstCommandsAfterReset
  intro c n p hc
  have h := inv_resetOf hc n p
  obtain ⟨hn, -, h1⟩ := registry_of_inv h
  refine ⟨?ethdec, ?arpdec, ?ethenc, ?arpenc, ?arpreq, ?etres, ?etwc⟩
  case ethdec => exact ethdec_fails_of_short (Nat.zero_le _) (by decide : 0 < 14)
  case arpdec => exact arpdec_fails_of_short (Nat.zero_le _) (by decide : 0 < 28)
  case ethenc =>
    exact ⟨_, exec_ethenc_ok (frame?_resetOf n p hc) (wireCodeOf_zero_of_inv h), finish_err _ _ _, rfl,
      bufBytes_after_ethenc _ ⟨zeroMac, zeroMac, 0, []⟩ 0x0800⟩
  case arpenc =>
    exact ⟨_, exec_arpenc _, finish_err _ _ _, rfl,
      (bufBytes_after_arpenc _).trans (arpEncode_packet_resetOf n p)⟩
  case arpreq => exact ⟨_, exec_arpreq _, finish_err _ _ _⟩
  case etres =>
    exact ⟨_, exec_etres_some (resolve_of_wireCodeOf hn h1), finish_err _ _ _, found_valid _ 1, found_value _ 1⟩
  case etwc => exact ⟨_, exec_etwc_some h1, finish_err _ _ _, found_valid _ 0x0806, found_value _ 0x0806⟩

end
